-- ==== Sys2Proof/Word.lean ====
section
/-! DEFINITION. The words of the pact-vm core: every register, memory byte and instruction byte is an
unsigned 8-bit integer (`00_scope.md` R7), every data address and jump target is 12 bits wide
(`20_memory.md` R35), and the one 16-bit quantity of the core is Math 0's product (`43_devices.md` R121). -/

namespace Sys2Proof

/-- A register value, a data byte or an instruction byte (R7). -/
abbrev Byte := BitVec 8

/-- A data-segment address or a jump target (R35). -/
abbrev Addr := BitVec 12

/-- The exact product of two bytes (R121). -/
abbrev Word16 := BitVec 16

end Sys2Proof
end

