-- ==== Sys2Proof/Syntax.lean ====
section
/-! DEFINITION. The instructions of the pact-vm core, one constructor for each row of
`spec/opcode_table.json` (`30_encoding.md` R52 to R56). Every field has exactly the width the format
gives it, so a field can hold no value the encoding does not have. -/

namespace Sys2Proof

/-- The four register ids (R10): 0 = `A` the accumulator, 1 = `G` general purpose, 2 = `S` the stack
pointer (a name only, R12), 3 = `H` the high-address register. -/
inductive Reg where
  | a
  | g
  | s
  | h
deriving DecidableEq, Repr

/-- The four devices (R56): 0 = Cpu, 1 = Keyboard, 2 = Screen, 3 = Math. -/
inductive Device where
  | cpu
  | keyboard
  | screen
  | math
deriving DecidableEq, Repr

/-- The eight instructions. -/
inductive Instr where
  /-- `ADI imm5` (R53, R71). -/
  | adi (imm5 : BitVec 5)
  /-- `ADD[*] rs, rd` (R54, R72): `ind` is the indirect flag, which governs both ids. -/
  | add (ind : Bool) (rs rd : Reg)
  /-- `SUB[*] rs, rd` (R54, R73). -/
  | sub (ind : Bool) (rs rd : Reg)
  /-- `JNE[*] off4` (R55, R82): `ptr` is the pointer flag. -/
  | jne (ptr : Bool) (off4 : BitVec 4)
  /-- `JG[*] off4` (R55, R83). -/
  | jg (ptr : Bool) (off4 : BitVec 4)
  /-- `JL[*] off4` (R55, R84). -/
  | jl (ptr : Bool) (off4 : BitVec 4)
  /-- `IOI dev, fn3` (R56, R90). -/
  | ioi (dev : Device) (fn3 : BitVec 3)
  /-- `IOR dev, fn3` (R56, R91). -/
  | ior (dev : Device) (fn3 : BitVec 3)
deriving DecidableEq, Repr

end Sys2Proof
end

