-- ==== Sys2Proof/WellFormed.lean ====
section
/-! DEFINITION. Well-formedness. The fields of `Instr` have the widths of the encoding, so the checks of
the formats (`30_encoding.md` R53 to R56) are stated on the instruction as an assembler or a test bench
writes it, with plain numbers for its fields (`RawInstr`, R58), and an `Instr` is well formed when its
numbers pass them. Every `Instr` does (`Laws/Encoding.lean`, `Instr.wf_all`): there is no illegal
instruction (R60). -/

namespace Sys2Proof

/-- An instruction whose fields are numbers of any size, as the builder of instruction bytes that R58
speaks of has them. -/
inductive RawInstr where
  | adi (imm5 : Nat)
  | add (ind rs rd : Nat)
  | sub (ind rs rd : Nat)
  | jne (ptr off4 : Nat)
  | jg (ptr off4 : Nat)
  | jl (ptr off4 : Nat)
  | ioi (dev fn3 : Nat)
  | ior (dev fn3 : Nat)
deriving DecidableEq, Repr

/-- Every field lies in the range its format gives it: `imm5` in `0..31` (R53); `ind` one bit and the
register ids in `0..3` (R54); `ptr` one bit and `off4` in `0..15` (R55); `dev` in `0..3` and `fn3` in
`0..7` (R56). -/
def RawInstr.wf : RawInstr → Bool
  | .adi imm5 => decide (imm5 < 32)
  | .add ind rs rd => decide (ind < 2) && decide (rs < 4) && decide (rd < 4)
  | .sub ind rs rd => decide (ind < 2) && decide (rs < 4) && decide (rd < 4)
  | .jne ptr off4 => decide (ptr < 2) && decide (off4 < 16)
  | .jg ptr off4 => decide (ptr < 2) && decide (off4 < 16)
  | .jl ptr off4 => decide (ptr < 2) && decide (off4 < 16)
  | .ioi dev fn3 => decide (dev < 4) && decide (fn3 < 8)
  | .ior dev fn3 => decide (dev < 4) && decide (fn3 < 8)

/-- The number of a register (R10). -/
def Reg.num : Reg → Nat
  | .a => 0
  | .g => 1
  | .s => 2
  | .h => 3

/-- The number of a device (R56). -/
def Device.num : Device → Nat
  | .cpu => 0
  | .keyboard => 1
  | .screen => 2
  | .math => 3

/-- The instruction with its fields as numbers. -/
def Instr.raw : Instr → RawInstr
  | .adi imm5 => .adi imm5.toNat
  | .add ind rs rd => .add ind.toNat rs.num rd.num
  | .sub ind rs rd => .sub ind.toNat rs.num rd.num
  | .jne ptr off4 => .jne ptr.toNat off4.toNat
  | .jg ptr off4 => .jg ptr.toNat off4.toNat
  | .jl ptr off4 => .jl ptr.toNat off4.toNat
  | .ioi dev fn3 => .ioi dev.num fn3.toNat
  | .ior dev fn3 => .ior dev.num fn3.toNat

/-- An instruction is well formed when all its fields lie in the ranges of its format. -/
def Instr.wf (i : Instr) : Bool := i.raw.wf

end Sys2Proof
end

