-- ==== Sys2Proof/Decode.lean ====
section
/-! DEFINITION. Decode and encode (`30_encoding.md` R50 to R64). Every instruction is one byte; decoding
a byte is total (R57, R60), and a list of bytes is refused only when it holds no byte at all. -/

namespace Sys2Proof

/-! ## Fields -/

/-- `b[lo+width-1:lo]`, bit 0 the least significant (R6). -/
def field (b : Byte) (lo width : Nat) : BitVec width := b.extractLsb' lo width

/-- The single bit `b[i]` (R6). -/
def bit (b : Byte) (i : Nat) : Bool := b.getLsbD i

/-- The register with a 2-bit id (R10). -/
def regOfId (id : BitVec 2) : Reg :=
  match id.toNat with
  | 0 => .a
  | 1 => .g
  | 2 => .s
  | _ => .h

/-- The device with a 2-bit id (R56). -/
def deviceOfId (id : BitVec 2) : Device :=
  match id.toNat with
  | 0 => .cpu
  | 1 => .keyboard
  | 2 => .screen
  | _ => .math

/-- The 2-bit id of a register (R10). -/
def regId (r : Reg) : BitVec 2 := BitVec.ofNat 2 r.num

/-- The 2-bit id of a device (R56). -/
def deviceId (d : Device) : BitVec 2 := BitVec.ofNat 2 d.num

/-! ## Decode -/

/-- Decoding one byte (R52, R57): the three low bits choose the instruction, the five high bits are cut
as its format says. -/
def decode (b : Byte) : Instr :=
  match (field b 0 3).toNat with
  | 0 => .adi (field b 3 5)
  | 1 => .add (bit b 3) (regOfId (field b 4 2)) (regOfId (field b 6 2))
  | 2 => .sub (bit b 3) (regOfId (field b 4 2)) (regOfId (field b 6 2))
  | 3 => .jne (bit b 3) (field b 4 4)
  | 4 => .jg (bit b 3) (field b 4 4)
  | 5 => .jl (bit b 3) (field b 4 4)
  | 6 => .ioi (deviceOfId (field b 3 2)) (field b 5 3)
  | _ => .ior (deviceOfId (field b 3 2)) (field b 5 3)

/-- Why a list of bytes gives no instruction. -/
inductive DecodeError where
  /-- There is no byte to decode; safe: the sequencer never fetches beyond the sequence (R15). -/
  | noByte
deriving DecidableEq, Repr

/-- The instruction at the head of a list of bytes, with the bytes after it: always exactly one byte
long (R50, R62), and never refused for what the byte holds (R60). -/
def decodeBytes : List Byte → Except DecodeError (Instr × List Byte)
  | [] => .error .noByte
  | b :: rest => .ok (decode b, rest)

/-! ## Encode -/

/-- Encoding an instruction (R57). -/
def encode : Instr → Byte
  | .adi imm5 => (imm5.setWidth 8 <<< 3) ||| 0#8
  | .add ind rs rd => encodeR 1#8 ind rs rd
  | .sub ind rs rd => encodeR 2#8 ind rs rd
  | .jne ptr off4 => encodeJ 3#8 ptr off4
  | .jg ptr off4 => encodeJ 4#8 ptr off4
  | .jl ptr off4 => encodeJ 5#8 ptr off4
  | .ioi dev fn3 => encodeD 6#8 dev fn3
  | .ior dev fn3 => encodeD 7#8 dev fn3
where
  /-- Format R (R54). -/
  encodeR (op : Byte) (ind : Bool) (rs rd : Reg) : Byte :=
    ((regId rd).setWidth 8 <<< 6) ||| ((regId rs).setWidth 8 <<< 4)
      ||| ((BitVec.ofBool ind).setWidth 8 <<< 3) ||| op
  /-- Format J (R55). -/
  encodeJ (op : Byte) (ptr : Bool) (off4 : BitVec 4) : Byte :=
    (off4.setWidth 8 <<< 4) ||| ((BitVec.ofBool ptr).setWidth 8 <<< 3) ||| op
  /-- Format D (R56). -/
  encodeD (op : Byte) (dev : Device) (fn3 : BitVec 3) : Byte :=
    (fn3.setWidth 8 <<< 5) ||| ((deviceId dev).setWidth 8 <<< 3) ||| op

/-! ## Building an instruction from numbers of any size -/

/-- The 3-bit field type: "masking the low N bits" of any byte (R58). -/
def fn3OfByte (v : Byte) : BitVec 3 := v.setWidth 3

/-- The 4-bit field type (R58). -/
def off4OfByte (v : Byte) : BitVec 4 := v.setWidth 4

/-- The instruction built from field values that may be too wide: each is masked to its field's width,
never clamped (R58; that the fields other than `fn3` and `off4` mask too is DEDUCED, log entry 9). -/
def RawInstr.toInstr : RawInstr → Instr
  | .adi imm5 => .adi (BitVec.ofNat 5 imm5)
  | .add ind rs rd => .add (ind.testBit 0) (regOfId (BitVec.ofNat 2 rs)) (regOfId (BitVec.ofNat 2 rd))
  | .sub ind rs rd => .sub (ind.testBit 0) (regOfId (BitVec.ofNat 2 rs)) (regOfId (BitVec.ofNat 2 rd))
  | .jne ptr off4 => .jne (ptr.testBit 0) (BitVec.ofNat 4 off4)
  | .jg ptr off4 => .jg (ptr.testBit 0) (BitVec.ofNat 4 off4)
  | .jl ptr off4 => .jl (ptr.testBit 0) (BitVec.ofNat 4 off4)
  | .ioi dev fn3 => .ioi (deviceOfId (BitVec.ofNat 2 dev)) (BitVec.ofNat 3 fn3)
  | .ior dev fn3 => .ior (deviceOfId (BitVec.ofNat 2 dev)) (BitVec.ofNat 3 fn3)

/-! ## The opcode map -/

/-- A row of the opcode map (R59). -/
structure OpcodeRow where
  mnemonic : String
  mask : Byte
  pattern : Byte
deriving DecidableEq, Repr

/-- The opcode map (R59, `spec/opcode_table.json`). -/
def opcodeMap : List OpcodeRow :=
  [⟨"ADI", 0x07#8, 0x00#8⟩, ⟨"ADD", 0x07#8, 0x01#8⟩, ⟨"SUB", 0x07#8, 0x02#8⟩, ⟨"JNE", 0x07#8, 0x03#8⟩,
   ⟨"JG", 0x07#8, 0x04#8⟩, ⟨"JL", 0x07#8, 0x05#8⟩, ⟨"IOI", 0x07#8, 0x06#8⟩, ⟨"IOR", 0x07#8, 0x07#8⟩]

/-- The rows a byte matches. -/
def matchingRows (b : Byte) : List OpcodeRow := opcodeMap.filter fun r => b &&& r.mask == r.pattern

/-- The mnemonic of an instruction, as the opcode map spells it (R52). -/
def mnemonic : Instr → String
  | .adi _ => "ADI"
  | .add _ _ _ => "ADD"
  | .sub _ _ _ => "SUB"
  | .jne _ _ => "JNE"
  | .jg _ _ => "JG"
  | .jl _ _ => "JL"
  | .ioi _ _ => "IOI"
  | .ior _ _ => "IOR"

/-! ## The spec's assembly notation -/

/-- The letter of a register (R63). -/
def regLetter : Reg → String
  | .a => "A"
  | .g => "G"
  | .s => "S"
  | .h => "H"

/-- The name of a device (R63). -/
def deviceName : Device → String
  | .cpu => "CPU"
  | .keyboard => "KBD"
  | .screen => "SCR"
  | .math => "MATH"

/-- The operand field of an instruction (R63). -/
def operandText : Instr → String
  | .adi imm5 => " " ++ toString imm5.toNat
  | .add ind rs rd => star ind ++ " " ++ regLetter rs ++ ", " ++ regLetter rd
  | .sub ind rs rd => star ind ++ " " ++ regLetter rs ++ ", " ++ regLetter rd
  | .jne ptr off4 => star ptr ++ " " ++ toString off4.toNat
  | .jg ptr off4 => star ptr ++ " " ++ toString off4.toNat
  | .jl ptr off4 => star ptr ++ " " ++ toString off4.toNat
  | .ioi dev fn3 => " " ++ deviceName dev ++ ", " ++ toString fn3.toNat
  | .ior dev fn3 => " " ++ deviceName dev ++ ", " ++ toString fn3.toNat
where
  /-- The mark of the indirect and pointer forms. -/
  star (b : Bool) : String := if b then "*" else ""

/-- The one spelling of an instruction in the spec's own notation (R63). -/
def asm (i : Instr) : String := mnemonic i ++ operandText i

/-- The pseudo-instruction `HLT` (R64). -/
def hlt : Instr := .ioi .cpu 0#3

/-- The pseudo-instruction `NOP` (R64). -/
def nop : Instr := .ioi .cpu 1#3

/-! ## The opcode table's numbering -/

/-- The one byte of an instruction whose table word is `w`, of which the table gives `nbits` bits: every
bit from `nbits` up is 0, and an instruction has no byte after its first (R50). -/
def tableByte (nbits w : Nat) : Byte := BitVec.ofNat 8 (w % 2 ^ nbits)

/-- The instruction the decoder reads from an instruction whose bits are `w`, numbered as the opcode
table numbers them. No row is longer than one byte (R50). -/
def decodeTableWord (nbits w : Nat) : Option Instr :=
  if nbits ≤ 8 then
    match decodeBytes [tableByte nbits w] with
    | .ok (i, _) => some i
    | .error _ => none
  else none

end Sys2Proof
end

