-- ==== Sys2Proof/Config.lean ====
section
/-! DEFINITION. The parameters of the hardware that the source leaves open and that the spec has a model
take as named arguments (`00_scope.md` R5). They are inputs of the block (`70_reset_and_hazards.md`
R180), so State holds them beside the instruction memory and no step changes them; a statement about
every state is then a statement about every value of them. -/

namespace Sys2Proof

/-- `DISPATCH`: whether jumps steer the fetch (R80) or do not (R85), decision D1. -/
inductive Discipline where
  | indexed
  | linear
deriving DecidableEq, Repr

/-- `MATH_SEL_POLICY`: what Math 0 and Math 1 do with a selector above 3 (R120, decision D8). -/
inductive MathSelPolicy where
  | fault
  | mask
deriving DecidableEq, Repr

/-- The configuration constants of the block (R5, R180). -/
structure Config where
  dispatch : Discipline
  mathSel : MathSelPolicy
  /-- `FLAGBIT_SIGN`, the bit of Math 7's value that feeds the sign flag; open in the spec (R128,
  decision D9). -/
  flagbitSign : Fin 2
deriving DecidableEq, Repr

end Sys2Proof
end

