-- ==== Sys2Proof/Machine/Params.lean ====
section
/-! DEFINITION. The values the spec's own vectors and defaults give the parameters (`00_scope.md` R5),
and the sizes and constants R5 fixes. The machine's meanings read the configuration from State, never
from here: `defaultConfig` is only what `State.reset` starts from. -/

namespace Sys2Proof.Machine

/-- `DISPATCH = indexed` and `MATH_SEL_POLICY = fault` are the spec's defaults (R5, decisions D1, D8).
`FLAGBIT_SIGN` is OPEN in the spec (decision D9); 0 here, the value of the spec's vectors, is a DESIGN
CHOICE (log entry 2) on which no statement rests. -/
def defaultConfig : Config := ⟨.indexed, .fault, 0⟩

/-- `FLAGBIT_ZERO = 1 - FLAGBIT_SIGN` (R5). -/
def flagbitZero (c : Config) : Nat := 1 - c.flagbitSign.val

/-- `IMEM_DEPTH` (R5, decision D5). -/
def imemDepth : Nat := 4096

/-- `PC_WIDTH` (R5, decision D5). -/
def pcWidth : Nat := 13

/-- The number of bytes of the data segment (R5, R20). -/
def dmemSize : Nat := 4096

/-- The magic header, first byte first (R174). -/
def magicHigh : Byte := 0x8B#8

/-- The second byte of the magic header (R174). -/
def magicLow : Byte := 0xCA#8

end Sys2Proof.Machine
end

