-- ==== Sys2Proof/Machine/State.lean ====
section
/-! DEFINITION. The whole state of the machine (`10_state.md`), as plain data: the state tuple of the spec
(registers, flags, position counter, data segment, status, output trace) and, because the host's step
takes a state and nothing else, the inputs of a run beside it (instruction memory and configuration,
log entry 1). -/

namespace Sys2Proof.Machine

/-- The register file (R10): four distinct bytes, none hard-wired, none read-only. -/
structure Regs where
  a : Byte
  g : Byte
  s : Byte
  h : Byte
deriving DecidableEq, Repr

/-- The three causes of a fatal outcome (R18, R140). -/
inductive Cause where
  /-- Math 1 with a selected register that holds 0 (R141). -/
  | divideByZero
  /-- Keyboard 0 and 1 (R142). -/
  | keyboardUnimplemented
  /-- Math 0 and 1 with a selector above 3 under `MATH_SEL_POLICY = fault` (R143). -/
  | indexOutOfBounds
deriving DecidableEq, Repr

/-- The run status (R18): running, or one of the terminal outcomes. -/
inductive Status where
  | running
  | halted
  | endOfStream
  | fatal (cause : Cause)
deriving DecidableEq, Repr

/-- An event that crossed the boundary to the Screen (R93). -/
inductive Event where
  | screenRow (v : Byte)
  | screenCol (v : Byte)
  | screenChar (v : Byte)
  | screenClear
deriving DecidableEq, Repr

/-- The data segment (R20) as the bytes that are not zero, by rising address: see `Memory.wf`. -/
abbrev Memory := List Host.Cell

/-- The state of the machine. -/
structure State where
  /-- The registers `x[0..3]` (R10). -/
  x : Regs
  /-- The sign flag `SF` (R16). -/
  sf : Bool
  /-- The zero flag `ZF` (R16). -/
  zf : Bool
  /-- The position counter (R13, R14): an index in instructions. -/
  pc : Nat
  /-- The data segment `DMem` (R20). -/
  dmem : Memory
  /-- The run status (R18). -/
  status : Status
  /-- The output trace, oldest event first, append-only (R93). -/
  out : List Event
  /-- The instruction memory `IMem`; its length is `N` (R21). An input, constant during a run. -/
  imem : List Byte
  /-- The configuration constants (R5, R180). An input, constant during a run. -/
  cfg : Config
deriving DecidableEq, Repr

/-- The reasons a step could stop with a fault. There is none: the fatal conditions of this machine are
outcomes whose entry the spec describes (R149), so they are next states with a `fatal` status, and every
byte of every instruction has a meaning (R60). Nobody raises a fault. -/
inductive Fault where
deriving DecidableEq, Repr

/-- The reasons a step could be refused. -/
inductive Refusal where
  /-- An instruction without a meaning in this model; raised by an arm of `exec` only, and safe. Every
  instruction has its meaning, so no arm raises it. -/
  | notModelled (mnemonic : String)
deriving DecidableEq, Repr

/-- The machine right after reset (R24, R170): every register, flag and data byte 0, `pc = 0`, running,
nothing emitted. `IMem` and the configuration are inputs, not reset (R24, R173): none is loaded yet and
the parameters stand at `defaultConfig` (log entries 1, 2, 3). -/
def State.reset : State where
  x := ⟨0, 0, 0, 0⟩
  sf := false
  zf := false
  pc := 0
  dmem := []
  status := .running
  out := []
  imem := []
  cfg := defaultConfig

end Sys2Proof.Machine
end

