-- ==== Sys2Proof/Machine/Ops.lean ====
section
/-! DEFINITION. The named operations over memory, registers, flags, position counter, status and trace,
among them the entry into each terminal outcome (`60_exceptions.md` R149, R150, `10_state.md` R15) and
reset, the only way out of one (R152, R170). -/

namespace Sys2Proof.Machine

/-! ## Data segment -/

/-- What an address not listed reads as: the reset contents of every data byte (R24). -/
def unlistedByte : Byte := 0

/-- The byte at the address `k` of the listed cells. -/
def lookupCell (k : Nat) : Memory → Byte
  | [] => unlistedByte
  | (j, b) :: m => if j = k then b else lookupCell k m

/-- The listed cells after the byte `v` is stored at `k`: in rising order, and without a cell that holds
what an unlisted address reads as. -/
def storeCell (k : Nat) (v : Byte) : Memory → Memory
  | [] => if v = unlistedByte then [] else [(k, v)]
  | (j, b) :: m =>
    if k < j then (if v = unlistedByte then (j, b) :: m else (k, v) :: (j, b) :: m)
    else if k = j then (if v = unlistedByte then m else (k, v) :: m)
    else (j, b) :: storeCell k v m

/-- `MemRead(a, 1)` (R8, R32). -/
def memRead (m : Memory) (a : Addr) : Byte := lookupCell a.toNat m

/-- `MemWrite(a, 1, v)` (R8, R32). -/
def memWrite (m : Memory) (a : Addr) (v : Byte) : Memory := storeCell a.toNat v m

/-- The cells lie at addresses from `lo` up to the end of the segment, strictly rising, and none holds
what an unlisted address reads as. -/
def cellsFrom (lo : Nat) : Memory → Bool
  | [] => true
  | (j, b) :: m => decide (lo ≤ j) && decide (j < dmemSize) && !(b == unlistedByte) && cellsFrom (j + 1) m

/-- The one canonical form of a data segment. -/
def Memory.wf (m : Memory) : Bool := cellsFrom 0 m

/-! ## Registers -/

/-- `x[r]` (R8). -/
def Regs.get (x : Regs) : Reg → Byte
  | .a => x.a
  | .g => x.g
  | .s => x.s
  | .h => x.h

/-- `x[r] <- v` (R8). -/
def Regs.set (x : Regs) (r : Reg) (v : Byte) : Regs :=
  match r with
  | .a => { x with a := v }
  | .g => { x with g := v }
  | .s => { x with s := v }
  | .h => { x with h := v }

/-! ## Updates of the state -/

/-- `x[r] <- v`. -/
def State.setReg (s : State) (r : Reg) (v : Byte) : State := { s with x := s.x.set r v }

/-- `SF <- sf; ZF <- zf`. -/
def State.setFlags (s : State) (sf zf : Bool) : State := { s with sf := sf, zf := zf }

/-- `ZF <- zf`, `SF` unchanged. -/
def State.setZero (s : State) (zf : Bool) : State := { s with zf := zf }

/-- `pc <- t`. -/
def State.goto (s : State) (t : Nat) : State := { s with pc := t }

/-- `pc <- pc + 1`, the sequencer's fall-through (R80). -/
def State.advance (s : State) : State := s.goto (s.pc + 1)

/-- `MemRead(a, 1)` in the state's data segment. -/
def State.read (s : State) (a : Addr) : Byte := memRead s.dmem a

/-- `MemWrite(a, 1, v)` in the state's data segment. -/
def State.write (s : State) (a : Addr) (v : Byte) : State := { s with dmem := memWrite s.dmem a v }

/-- `emit(e)` (R93). -/
def State.emit (s : State) (e : Event) : State := { s with out := s.out ++ [e] }

/-! ## Terminal outcomes and reset -/

/-- Fatal entry (R149): the cause goes to the status, `pc` keeps the index of the faulting instruction,
nothing else changes. -/
def State.fatalEntry (s : State) (c : Cause) : State := { s with status := .fatal c }

/-- Halt entry (R150): `pc` keeps the index of the halting instruction, nothing else changes. -/
def State.haltEntry (s : State) : State := { s with status := .halted }

/-- The end of the sequence (R15). -/
def State.endEntry (s : State) : State := { s with status := .endOfStream }

/-- Reset (R170), the only return from a terminal outcome (R152): every piece of state goes to its reset
value; the instruction memory and the configuration are inputs and stay (R24). -/
def State.resetAgain (s : State) : State := { State.reset with imem := s.imem, cfg := s.cfg }

/-! ## Fetch and placing an instruction -/

/-- The instruction byte at `pc`, none when `pc >= N` (R15, R80). -/
def State.fetch (s : State) : Option Byte := s.imem[s.pc]?

/-- The instruction bytes with the byte `b` at the index `k`; indices below `k` that the sequence did not
have yet hold 0. -/
def placeByte : List Byte → Nat → Byte → List Byte
  | [], 0, b => [b]
  | [], k + 1, b => 0 :: placeByte [] k b
  | _ :: m, 0, b => b :: m
  | c :: m, k + 1, b => c :: placeByte m k b

/-- The state in which the byte `b` is the next one fetched: at `pc` in the instruction memory, and
running, since a machine in a terminal status fetches nothing. -/
def State.placeNext (s : State) (b : Byte) : State :=
  { s with imem := placeByte s.imem s.pc b, status := .running }

/-! ## What a device function answers -/

/-- The three possible results of a device function (R92). -/
inductive DeviceResult where
  /-- Returned `false`: the state it leaves, before `pc` moves. -/
  | done (s : State)
  /-- Returned `true`: the run halts. -/
  | halt
  /-- Raised a fatal condition. -/
  | raise (c : Cause)
deriving DecidableEq, Repr

/-- What the invoking instruction does with a device's result (R80, R90): advance, halt entry or fatal
entry. The two entries start from the state before the instruction (R149, R150). -/
def finishIo (r : DeviceResult) (s : State) : State :=
  match r with
  | .done t => t.advance
  | .halt => s.haltEntry
  | .raise c => s.fatalEntry c

end Sys2Proof.Machine
end

