-- ==== Sys2Proof/Machine/Flags.lean ====
section
/-! DEFINITION. Every flag computation: the zero flag of a byte and of the 16-bit product, the borrow
(`10_state.md` R16, `40_arithmetic.md` R73, `43_devices.md` R121), Math 7's bits (R128), and the three
jump conditions (`41_control_transfer.md` R82 to R84). -/

namespace Sys2Proof.Machine

/-- `r = 0` for a byte result. -/
def isZero (r : Byte) : Bool := r == 0

/-- `p = 0` for the whole 16-bit product (R121). -/
def isZero16 (p : Word16) : Bool := p == 0

/-- A borrow occurred in `d - s`: the unsigned comparison `d < s` of the old values (R73). -/
def borrow (d s : Byte) : Bool := decide (d.toNat < s.toNat)

/-- The sign flag Math 7 writes (R128). -/
def flagSignOf (c : Config) (v : Byte) : Bool := v.getLsbD c.flagbitSign.val

/-- The zero flag Math 7 writes (R128). -/
def flagZeroOf (c : Config) (v : Byte) : Bool := v.getLsbD (flagbitZero c)

/-- The number Math 6 packs the two flags into; which flag is which bit is not in the source and cannot
matter (R127). -/
def packedFlags (s : State) : BitVec 2 :=
  (BitVec.ofBool s.zf).setWidth 2 <<< 1 ||| (BitVec.ofBool s.sf).setWidth 2

/-- `JNE`'s condition (R82). -/
def condJne (s : State) : Bool := !s.zf

/-- `JG`'s condition, as the source states it, whatever the name suggests (R83, decision D25). -/
def condJg (s : State) : Bool := s.sf

/-- `JL`'s condition (R84). -/
def condJl (s : State) : Bool := !s.sf && !s.zf

end Sys2Proof.Machine
end

