-- ==== Sys2Proof/Machine/Operands.lean ====
section
/-! DEFINITION. Every operand form: the register resolver (`40_arithmetic.md` R70), address composition
and pointer addressing (`20_memory.md` R35, R36), jump targets (`41_control_transfer.md` R81), the value
an I/O instruction passes (`42_io_dispatch.md` R90, R91) and Math's register selection
(`43_devices.md` R120). -/

namespace Sys2Proof.Machine

/-- The register a byte points to: its low two bits as an id (R70, R91). -/
def regOfByte (v : Byte) : Reg := regOfId (v.setWidth 2)

/-- `resolve(id, ind)` (R70). -/
def resolve (x : Regs) (id : Reg) (ind : Bool) : Reg := if ind then regOfByte (x.get id) else id

/-- `ADI`'s operand, zero-extended to a byte (R53, R71). -/
def immByte (imm5 : BitVec 5) : Byte := imm5.setWidth 8

/-- A jump's operand as the low component of an address (R55, R81). -/
def offByte (off4 : BitVec 4) : Byte := off4.setWidth 8

/-- `ea(v)` for the high-address register `h`: the whole byte `v` is OR-ed in (R35). -/
def ea (h v : Byte) : Addr := (h.setWidth 12 <<< 4) ||| v.setWidth 12

/-- `ea(v)` in a state. -/
def State.ea (s : State) (v : Byte) : Addr := Machine.ea s.x.h v

/-- The final address of pointer addressing (R36). -/
def State.eaPtr (s : State) (v : Byte) : Addr := s.ea (s.read (s.ea v))

/-- The target of a jump (R81). -/
def jumpTarget (s : State) (ptr : Bool) (off4 : BitVec 4) : Addr :=
  if ptr then s.eaPtr (offByte off4) else s.ea (offByte off4)

/-- The value `IOI` passes (R90). -/
def ioiValue (s : State) : Byte := s.x.a

/-- The value `IOR` passes (R91). -/
def iorValue (s : State) : Byte := s.x.get (regOfByte s.x.a)

/-- `sel(v)` (R120): none where it raises `IndexOutOfBounds`. -/
def mathSelect (p : MathSelPolicy) (v : Byte) : Option Reg :=
  if v.toNat ≤ 3 then some (regOfByte v)
  else
    match p with
    | .fault => none
    | .mask => some (regOfByte v)

end Sys2Proof.Machine
end

