-- ==== Sys2Proof/Machine/Arithmetic.lean ====
section
/-! DEFINITION. `ADI`, `ADD` and `SUB` (`40_arithmetic.md` R71 to R73). -/

namespace Sys2Proof.Machine

/-- `ADI imm5` (R71). -/
def execAdi (imm5 : BitVec 5) (s : State) : Host.Outcome State Fault Refusal :=
  let r := s.x.a + immByte imm5
  .next (((s.setReg .a r).setFlags false (isZero r)).advance)

/-- `ADD[*] rs, rd` (R72): both ids are resolved, and both operands read, in the state before the
instruction (R8). -/
def execAdd (ind : Bool) (rs rd : Reg) (s : State) : Host.Outcome State Fault Refusal :=
  let src := resolve s.x rs ind
  let dst := resolve s.x rd ind
  let r := s.x.get dst + s.x.get src
  .next (((s.setReg dst r).setFlags false (isZero r)).advance)

/-- `SUB[*] rs, rd` (R73): destination minus source. -/
def execSub (ind : Bool) (rs rd : Reg) (s : State) : Host.Outcome State Fault Refusal :=
  let src := resolve s.x rs ind
  let dst := resolve s.x rd ind
  let r := s.x.get dst - s.x.get src
  .next (((s.setReg dst r).setFlags (borrow (s.x.get dst) (s.x.get src)) (isZero r)).advance)

end Sys2Proof.Machine
end

