-- ==== Sys2Proof/Machine/Control.lean ====
section
/-! DEFINITION. The conditional jumps `JNE`, `JG` and `JL` under both disciplines
(`41_control_transfer.md` R80 to R85). -/

namespace Sys2Proof.Machine

/-- The next position after a jump with condition `cond` and target `t`: under `indexed` the target when
the condition holds (R80), under `linear` the next index whatever the condition (R85). -/
def State.branch (s : State) (cond : Bool) (t : Addr) : State :=
  match s.cfg.dispatch with
  | .indexed => if cond then s.goto t.toNat else s.advance
  | .linear => s.advance

/-- `JNE[*] off4` (R82). -/
def execJne (ptr : Bool) (off4 : BitVec 4) (s : State) : Host.Outcome State Fault Refusal :=
  .next (s.branch (condJne s) (jumpTarget s ptr off4))

/-- `JG[*] off4` (R83). -/
def execJg (ptr : Bool) (off4 : BitVec 4) (s : State) : Host.Outcome State Fault Refusal :=
  .next (s.branch (condJg s) (jumpTarget s ptr off4))

/-- `JL[*] off4` (R84). -/
def execJl (ptr : Bool) (off4 : BitVec 4) (s : State) : Host.Outcome State Fault Refusal :=
  .next (s.branch (condJl s) (jumpTarget s ptr off4))

end Sys2Proof.Machine
end

