-- ==== Sys2Proof/Machine/Devices.lean ====
section
/-! DEFINITION. The 32 device functions (`43_devices.md` R100 to R129), one definition each, and the
dispatcher over them (`42_io_dispatch.md` R92). Each takes the value passed and the state before the
instruction, and leaves `pc` to the invoking instruction. -/

namespace Sys2Proof.Machine

/-! ## Operations that several functions share -/

/-- A function that does nothing. -/
def noOp (s : State) : DeviceResult := .done s

/-- `x[0] <- 0`, no flag written (R17). -/
def clearAccumulator (s : State) : DeviceResult := .done (s.setReg .a 0)

/-- `x[0] <- r; ZF <- (r = 0)`, `SF` unchanged (R123 to R126). -/
def setAccumulatorZero (s : State) (r : Byte) : DeviceResult := .done ((s.setReg .a r).setZero (isZero r))

/-! ## Cpu -/

/-- Cpu 0, halt (R101). -/
def cpu0 (_v : Byte) (_s : State) : DeviceResult := .halt

/-- Cpu 1, no-op (R102). -/
def cpu1 (_v : Byte) (s : State) : DeviceResult := noOp s

/-- Cpu 2, clear accumulator (R103). -/
def cpu2 (_v : Byte) (s : State) : DeviceResult := clearAccumulator s

/-- Cpu 3, load (R104). -/
def cpu3 (v : Byte) (s : State) : DeviceResult := .done (s.setReg .a (s.read (s.ea v)))

/-- Cpu 4, store (R105). -/
def cpu4 (v : Byte) (s : State) : DeviceResult := .done (s.write (s.ea v) s.x.a)

/-- Cpu 5, load through a pointer (R106). -/
def cpu5 (v : Byte) (s : State) : DeviceResult := .done (s.setReg .a (s.read (s.eaPtr v)))

/-- Cpu 6, store through a pointer (R107). -/
def cpu6 (v : Byte) (s : State) : DeviceResult := .done (s.write (s.eaPtr v) s.x.a)

/-- Cpu 7, no-op (R108). -/
def cpu7 (_v : Byte) (s : State) : DeviceResult := noOp s

/-! ## Keyboard -/

/-- Keyboard 0, not implemented (R110). -/
def keyboard0 (_v : Byte) (_s : State) : DeviceResult := .raise .keyboardUnimplemented

/-- Keyboard 1, not implemented (R111). -/
def keyboard1 (_v : Byte) (_s : State) : DeviceResult := .raise .keyboardUnimplemented

/-- Keyboard 2, no-op (R112). -/
def keyboard2 (_v : Byte) (s : State) : DeviceResult := noOp s

/-- Keyboard 3, no-op (R112). -/
def keyboard3 (_v : Byte) (s : State) : DeviceResult := noOp s

/-- Keyboard 4, no-op (R112). -/
def keyboard4 (_v : Byte) (s : State) : DeviceResult := noOp s

/-- Keyboard 5, no-op (R112). -/
def keyboard5 (_v : Byte) (s : State) : DeviceResult := noOp s

/-- Keyboard 6, no-op (R112). -/
def keyboard6 (_v : Byte) (s : State) : DeviceResult := noOp s

/-- Keyboard 7, no-op (R112). -/
def keyboard7 (_v : Byte) (s : State) : DeviceResult := noOp s

/-! ## Screen -/

/-- Screen 0, cursor row (R113). -/
def screen0 (v : Byte) (s : State) : DeviceResult := .done (s.emit (.screenRow v))

/-- Screen 1, cursor column (R114). -/
def screen1 (v : Byte) (s : State) : DeviceResult := .done (s.emit (.screenCol v))

/-- Screen 2, emit character (R115). -/
def screen2 (v : Byte) (s : State) : DeviceResult := .done (s.emit (.screenChar v))

/-- Screen 3, clear accumulator (R116). -/
def screen3 (_v : Byte) (s : State) : DeviceResult := clearAccumulator s

/-- Screen 4, clear accumulator (R117). -/
def screen4 (_v : Byte) (s : State) : DeviceResult := clearAccumulator s

/-- Screen 5, clear screen (R118). -/
def screen5 (_v : Byte) (s : State) : DeviceResult := .done (s.emit .screenClear)

/-- Screen 6, no-op (R119). -/
def screen6 (_v : Byte) (s : State) : DeviceResult := noOp s

/-- Screen 7, no-op (R119). -/
def screen7 (_v : Byte) (s : State) : DeviceResult := noOp s

/-! ## Math -/

/-- The exact 16-bit product of two bytes (R121). -/
def product (a b : Byte) : Word16 := BitVec.ofNat 16 (a.toNat * b.toNat)

/-- The low byte of a product (R30, R121). -/
def lowByte (p : Word16) : Byte := p.extractLsb' 0 8

/-- The high byte of a product (R30, R121). -/
def highByte (p : Word16) : Byte := p.extractLsb' 8 8

/-- The floor of the exact quotient of two unsigned bytes (R122). -/
def quotient (a b : Byte) : Byte := BitVec.ofNat 8 (a.toNat / b.toNat)

/-- Math 0, widening multiply (R121): both factors are read before `A` and `G` are written. -/
def math0 (v : Byte) (s : State) : DeviceResult :=
  match mathSelect s.cfg.mathSel v with
  | none => .raise .indexOutOfBounds
  | some r =>
    let p := product s.x.a (s.x.get r)
    .done (((s.setReg .a (lowByte p)).setReg .g (highByte p)).setZero (isZero16 p))

/-- Math 1, divide (R122): the selector is checked before the divisor (R148). -/
def math1 (v : Byte) (s : State) : DeviceResult :=
  match mathSelect s.cfg.mathSel v with
  | none => .raise .indexOutOfBounds
  | some r =>
    if s.x.get r = 0 then .raise .divideByZero
    else setAccumulatorZero s (quotient s.x.a (s.x.get r))

/-- Math 2, AND of the accumulator with itself (R123). -/
def math2 (_v : Byte) (s : State) : DeviceResult := setAccumulatorZero s (s.x.a &&& s.x.a)

/-- Math 3, OR of the accumulator with itself (R124). -/
def math3 (_v : Byte) (s : State) : DeviceResult := setAccumulatorZero s (s.x.a ||| s.x.a)

/-- Math 4, XOR of the accumulator with itself (R125). -/
def math4 (_v : Byte) (s : State) : DeviceResult := setAccumulatorZero s (s.x.a ^^^ s.x.a)

/-- Math 5, NOT of the accumulator (R126). -/
def math5 (_v : Byte) (s : State) : DeviceResult := setAccumulatorZero s (~~~s.x.a)

/-- What Math 6 reads and discards (R127). -/
def deadRead (s : State) : Byte := s.x.get (regOfId (packedFlags s))

/-- Math 6, dead read (R127): the register that the packed flags select is read and its value goes
nowhere. -/
def math6 (_v : Byte) (s : State) : DeviceResult :=
  let _discarded := deadRead s
  noOp s

/-- Math 7, write both flags from the value (R128). -/
def math7 (v : Byte) (s : State) : DeviceResult :=
  .done (s.setFlags (flagSignOf s.cfg v) (flagZeroOf s.cfg v))

/-! ## The dispatcher -/

/-- The Cpu functions by number (R100). -/
def cpuFn (fn3 : BitVec 3) (v : Byte) (s : State) : DeviceResult :=
  match fn3.toNat with
  | 0 => cpu0 v s
  | 1 => cpu1 v s
  | 2 => cpu2 v s
  | 3 => cpu3 v s
  | 4 => cpu4 v s
  | 5 => cpu5 v s
  | 6 => cpu6 v s
  | _ => cpu7 v s

/-- The Keyboard functions by number (R100). -/
def keyboardFn (fn3 : BitVec 3) (v : Byte) (s : State) : DeviceResult :=
  match fn3.toNat with
  | 0 => keyboard0 v s
  | 1 => keyboard1 v s
  | 2 => keyboard2 v s
  | 3 => keyboard3 v s
  | 4 => keyboard4 v s
  | 5 => keyboard5 v s
  | 6 => keyboard6 v s
  | _ => keyboard7 v s

/-- The Screen functions by number (R100). -/
def screenFn (fn3 : BitVec 3) (v : Byte) (s : State) : DeviceResult :=
  match fn3.toNat with
  | 0 => screen0 v s
  | 1 => screen1 v s
  | 2 => screen2 v s
  | 3 => screen3 v s
  | 4 => screen4 v s
  | 5 => screen5 v s
  | 6 => screen6 v s
  | _ => screen7 v s

/-- The Math functions by number (R100). -/
def mathFn (fn3 : BitVec 3) (v : Byte) (s : State) : DeviceResult :=
  match fn3.toNat with
  | 0 => math0 v s
  | 1 => math1 v s
  | 2 => math2 v s
  | 3 => math3 v s
  | 4 => math4 v s
  | 5 => math5 v s
  | 6 => math6 v s
  | _ => math7 v s

/-- `Device(dev, fn3, v)` (R92). -/
def device (dev : Device) (fn3 : BitVec 3) (v : Byte) (s : State) : DeviceResult :=
  match dev with
  | .cpu => cpuFn fn3 v s
  | .keyboard => keyboardFn fn3 v s
  | .screen => screenFn fn3 v s
  | .math => mathFn fn3 v s

end Sys2Proof.Machine
end

