-- ==== Sys2Proof/Machine/Io.lean ====
section
/-! DEFINITION. `IOI` and `IOR` (`42_io_dispatch.md` R90, R91): the value is read, the device function
runs, and the run advances, halts or ends fatally. -/

namespace Sys2Proof.Machine

/-- `IOI dev, fn3` (R90). -/
def execIoi (dev : Device) (fn3 : BitVec 3) (s : State) : Host.Outcome State Fault Refusal :=
  .next (finishIo (device dev fn3 (ioiValue s) s) s)

/-- `IOR dev, fn3` (R91). -/
def execIor (dev : Device) (fn3 : BitVec 3) (s : State) : Host.Outcome State Fault Refusal :=
  .next (finishIo (device dev fn3 (iorValue s) s) s)

end Sys2Proof.Machine
end

