-- ==== Sys2Proof/Machine/Dispatch.lean ====
section
/-! DEFINITION. One arm for each instruction. -/

namespace Sys2Proof.Machine

def exec (i : Instr) (s : State) : Host.Outcome State Fault Refusal :=
  match i with
  | .adi imm5 => Sys2Proof.Machine.execAdi imm5 s
  | .add ind rs rd => Sys2Proof.Machine.execAdd ind rs rd s
  | .sub ind rs rd => Sys2Proof.Machine.execSub ind rs rd s
  | .jne ptr off4 => Sys2Proof.Machine.execJne ptr off4 s
  | .jg ptr off4 => Sys2Proof.Machine.execJg ptr off4 s
  | .jl ptr off4 => Sys2Proof.Machine.execJl ptr off4 s
  | .ioi dev fn3 => Sys2Proof.Machine.execIoi dev fn3 s
  | .ior dev fn3 => Sys2Proof.Machine.execIor dev fn3 s

end Sys2Proof.Machine
end

