-- ==== Sys2Proof/Machine/Step.lean ====
section
/-! DEFINITION. One step of the machine (`41_control_transfer.md` R80, R85) and the state in which a given
instruction is the next one fetched. -/

namespace Sys2Proof.Machine

/-- One step: none in a terminal status (the state stays, R152), the end of the sequence at `pc >= N`
(R15), otherwise the instruction at `pc`. What each discipline does with `pc` is in the meanings. -/
def step (s : State) : Host.Outcome State Fault Refusal :=
  match s.status with
  | .running =>
    match s.fetch with
    | none => .next s.endEntry
    | some b => exec (decode b) s
  | .halted => .next s
  | .endOfStream => .next s
  | .fatal _ => .next s

/-- The state `s` with the instruction whose table word is `w` at `pc` in the instruction memory, and
running, so that the very next step runs it (log entry 3). -/
def State.withFetchWord (s : State) (nbits w : Nat) : State := s.placeNext (tableByte nbits w)

end Sys2Proof.Machine
end

