-- ==== Sys2Proof/Machine/Image.lean ====
section
/-! DEFINITION. The program image (`70_reset_and_hazards.md` R173 to R175): what a valid image is, and the
state a run starts from once one is loaded. Reading a file is outside (`00_scope.md` R4). -/

namespace Sys2Proof.Machine

/-- Why an image is rejected before any instruction is decoded. -/
inductive ImageError where
  /-- Fewer than two bytes; whether this is the header error or the I/O error the source does not say
  (R175, N24), so it has a name of its own. -/
  | tooShort
  /-- The first two bytes are not the magic header (R175). -/
  | invalidHeader
  /-- More than `IMEM_DEPTH` instructions: refused by the spec's hardware (R175, decision D5). -/
  | tooLong
deriving DecidableEq, Repr

/-- The source's header check (R174). -/
def checkMagic (b0 b1 : Byte) : Bool := b0 == magicHigh && b1 == magicLow

/-- The instruction bytes of an image: those after the two-byte header (R174). -/
def imageBytes : List Byte → Except ImageError (List Byte)
  | b0 :: b1 :: code =>
    if checkMagic b0 b1 then (if code.length ≤ imemDepth then .ok code else .error .tooLong)
    else .error .invalidHeader
  | [_] => .error .tooShort
  | [] => .error .tooShort

/-- The state from which a run of an image starts: reset, with the image's instructions as the
instruction memory and a given configuration (R170, R173). -/
def loadImage (c : Config) (f : List Byte) : Except ImageError State :=
  match imageBytes f with
  | .ok code => .ok { State.reset with imem := code, cfg := c }
  | .error e => .error e

end Sys2Proof.Machine
end

