-- ==== Sys2Proof/Machine/Port.lean ====
section
/-! DEFINITION. The block's outputs (`70_reset_and_hazards.md` R180): the status code
(`60_exceptions.md` R151), the Screen event port (`42_io_dispatch.md` R93), and the architectural state
for observation. -/

namespace Sys2Proof.Machine

/-- The cause codes (R151). -/
def causeCode : Cause → BitVec 3
  | .divideByZero => 1
  | .keyboardUnimplemented => 2
  | .indexOutOfBounds => 3

/-- The `status` output (R151); codes 6 and 7 are never produced. -/
def statusCode : Status → BitVec 3
  | .running => 0
  | .fatal c => causeCode c
  | .halted => 4
  | .endOfStream => 5

/-- Whether a terminal outcome is a success, none for a run that has not ended (R140, R151). -/
def successful : Status → Option Bool
  | .running => none
  | .fatal _ => some false
  | .halted => some true
  | .endOfStream => some true

/-- The `kind` lines of the event port (R180). -/
def eventKind : Event → BitVec 2
  | .screenRow _ => 0
  | .screenCol _ => 1
  | .screenChar _ => 2
  | .screenClear => 3

/-- The value an event carries; the spec states none for `ScreenClear` (R93, log entry 7). -/
def eventValue : Event → Option Byte
  | .screenRow v => some v
  | .screenCol v => some v
  | .screenChar v => some v
  | .screenClear => none

/-- The outputs of the block in a state, the event port apart (R180). -/
structure Outputs where
  status : BitVec 3
  x0 : Byte
  x1 : Byte
  x2 : Byte
  x3 : Byte
  sf : Bool
  zf : Bool
  pc : Nat
deriving DecidableEq, Repr

/-- The outputs a state drives (R180). -/
def State.outputs (s : State) : Outputs :=
  ⟨statusCode s.status, s.x.a, s.x.g, s.x.s, s.x.h, s.sf, s.zf, s.pc⟩

/-- What the event port carries in a step from `s` to `t`: the events `t`'s trace has beyond `s`'s, none
where `valid` is low. -/
def portEvents (s t : State) : List (BitVec 2 × Option Byte) :=
  (t.out.drop s.out.length).map fun e => (eventKind e, eventValue e)

end Sys2Proof.Machine
end

