-- ==== Sys2Proof/Safety.lean ====
section
/-! DEFINITION. The terms the statements use: which instructions call a device function and with what
value, what a step leaves unchanged, and the invariant of the machine. -/

namespace Sys2Proof.Machine

/-! ## Device calls -/

/-- The instruction `i`, executed in `s`, calls function `f` of device `d` with the value `v`: `IOI`
passes the accumulator (R90), `IOR` the register whose id is the accumulator's low two bits (R91). -/
def Calls (s : State) (d : Device) (f : BitVec 3) (i : Instr) (v : Byte) : Prop :=
  (i = .ioi d f ∧ v = s.x.a) ∨ (i = .ior d f ∧ ∃ r : Reg, r.num = s.x.a.toNat % 4 ∧ v = s.x.get r)

/-! ## What is left unchanged -/

/-- Every byte of the data segment reads as before. -/
def SameMemory (s t : State) : Prop := ∀ k : Addr, t.read k = s.read k

/-- Every register but `r` reads as before. -/
def SameRegsBut (r : Reg) (s t : State) : Prop := ∀ q : Reg, q ≠ r → t.x.get q = s.x.get q

/-- The run goes on with the same trace and the same inputs. -/
def SameRun (s t : State) : Prop :=
  t.status = s.status ∧ t.out = s.out ∧ t.imem = s.imem ∧ t.cfg = s.cfg

/-- The same state under another discipline. -/
def State.under (s : State) (d : Discipline) : State := { s with cfg := { s.cfg with dispatch := d } }

/-! ## Jumps -/

/-- The byte is a jump (R52: tags 3, 4, 5). -/
def IsJumpByte (b : Byte) : Prop := b.toNat % 8 = 3 ∨ b.toNat % 8 = 4 ∨ b.toNat % 8 = 5

/-- The condition of the jump `b` holds (R82 to R84). -/
def JumpTaken (s : State) (b : Byte) : Prop :=
  (b.toNat % 8 = 3 ∧ s.zf = false) ∨ (b.toNat % 8 = 4 ∧ s.sf = true) ∨
  (b.toNat % 8 = 5 ∧ s.sf = false ∧ s.zf = false)

/-! ## The invariant -/

/-- The value the I/O byte `b` passes in `s`: `IOI` bytes have tag 6, `IOR` bytes tag 7. -/
def PassedBy (s : State) (b : Byte) (v : Byte) : Prop :=
  (b.toNat % 8 = 6 ∧ v = s.x.a) ∨ (b.toNat % 8 = 7 ∧ ∃ r : Reg, r.num = s.x.a.toNat % 4 ∧ v = s.x.get r)

/-- The reason for the status, seen in the state itself: a terminal outcome leaves `pc` at the
instruction that ended the run and changes nothing it read (R146, R149, R150, R15). -/
def StatusExplained (s : State) : Prop :=
  match s.status with
  | .running => True
  | .halted => s.fetch = some 0x06#8 ∨ s.fetch = some 0x07#8
  | .endOfStream => s.imem.length ≤ s.pc
  | .fatal .keyboardUnimplemented => ∃ b ∈ [0x0E#8, 0x0F#8, 0x2E#8, 0x2F#8], s.fetch = some b
  | .fatal .divideByZero =>
    ∃ b ∈ [0x3E#8, 0x3F#8], s.fetch = some b ∧
      ∃ v, PassedBy s b v ∧ ∃ r : Reg, r.num = v.toNat % 4 ∧ s.x.get r = 0
  | .fatal .indexOutOfBounds =>
    s.cfg.mathSel = .fault ∧ ∃ b ∈ [0x1E#8, 0x1F#8, 0x3E#8, 0x3F#8], s.fetch = some b ∧
      ∃ v, PassedBy s b v ∧ 3 < v.toNat

/-- The invariant of the machine: the data segment is canonical (the model's form, log entry 13), `pc` lies
in `0 .. max(N, 4095)` (R14, decision D5), and a terminal status is explained by the instruction `pc` is
left at (decisions D6, D8, D11). -/
def Inv (s : State) : Prop :=
  Memory.wf s.dmem = true ∧ s.pc ≤ max s.imem.length 4095 ∧ StatusExplained s

end Sys2Proof.Machine
end

