-- ==== Sys2Proof/Certificates/Slice0/Obligations.lean ====
section
/-! DEFINITION. The statements for the provers. Each docstring says which rule it formalises, or that it
rests on a decision the spec or the model made. `x.a, x.g, x.s, x.h` are the registers `A, G, S, H`. -/

open Sys2Proof Sys2Proof.Machine

/-! ## Encoding -/

/-- Decode and encode are exact inverses, for every instruction with every operand and for every byte;
the decoder the host asks agrees (`30_encoding.md` section 4, Decode and encode). -/
def Obligations.DecodeEncodeRoundTrip : Prop :=
  (∀ i : Instr, decode (encode i) = i ∧ decodeTableWord 8 (encode i).toNat = some i) ∧
  ∀ b : Byte, encode (decode b) = b

/-- Which instruction a byte is and what its fields are, by arithmetic on the byte's value. The tag
numbers, device ids and field bit orders are the spec's decisions D2, D3, D4. -/
def Obligations.DecodeCutsFieldsByOpcode : Prop :=
  ∀ b : Byte,
    (b.toNat % 8 = 0 → ∃ m : BitVec 5, decode b = .adi m ∧ m.toNat = b.toNat / 8) ∧
    (b.toNat % 8 = 1 → ∃ n q d, decode b = .add n q d ∧
      n.toNat = b.toNat / 8 % 2 ∧ q.num = b.toNat / 16 % 4 ∧ d.num = b.toNat / 64) ∧
    (b.toNat % 8 = 2 → ∃ n q d, decode b = .sub n q d ∧
      n.toNat = b.toNat / 8 % 2 ∧ q.num = b.toNat / 16 % 4 ∧ d.num = b.toNat / 64) ∧
    (b.toNat % 8 = 3 → ∃ p, ∃ o : BitVec 4, decode b = .jne p o ∧
      p.toNat = b.toNat / 8 % 2 ∧ o.toNat = b.toNat / 16) ∧
    (b.toNat % 8 = 4 → ∃ p, ∃ o : BitVec 4, decode b = .jg p o ∧
      p.toNat = b.toNat / 8 % 2 ∧ o.toNat = b.toNat / 16) ∧
    (b.toNat % 8 = 5 → ∃ p, ∃ o : BitVec 4, decode b = .jl p o ∧
      p.toNat = b.toNat / 8 % 2 ∧ o.toNat = b.toNat / 16) ∧
    (b.toNat % 8 = 6 → ∃ d, ∃ f : BitVec 3, decode b = .ioi d f ∧
      d.num = b.toNat / 8 % 4 ∧ f.toNat = b.toNat / 32) ∧
    (b.toNat % 8 = 7 → ∃ d, ∃ f : BitVec 3, decode b = .ior d f ∧
      d.num = b.toNat / 8 % 4 ∧ f.toNat = b.toNat / 32)

/-- R60: no byte is an illegal, reserved or undefined instruction. Every byte at the head of a list is one
whole instruction, and executing it answers a next state in every state; a run it ends, it ends by a
halt or by one of the three fatal conditions, never by an illegal-instruction exception. -/
def Obligations.EveryByteHasItsMeaning : Prop :=
  ∀ (b : Byte) (rest : List Byte) (s : State),
    decodeBytes (b :: rest) = .ok (decode b, rest) ∧
    ∃ t, exec (decode b) s = .next t ∧
      (t.status = s.status ∨ t.status = .halted ∨ t.status = .fatal .divideByZero ∨
        t.status = .fatal .keyboardUnimplemented ∨ t.status = .fatal .indexOutOfBounds)

/-- R58: the 3-bit and 4-bit field types are made from any byte by masking its low bits, not by clamping;
the decoder's own fields are what a shift leaves and lose nothing; and each of the five instructions with
such a field, built from wider numbers, masks it. -/
def Obligations.FieldTypesMaskLowBits : Prop :=
  (∀ v : Byte, (fn3OfByte v).toNat = v.toNat % 8 ∧ (off4OfByte v).toNat = v.toNat % 16) ∧
  off4OfByte 0x1F#8 = 0xF#4 ∧ off4OfByte 0x12#8 = 0x2#4 ∧
  (∀ b : Byte, (field b 5 3).toNat = b.toNat / 32 ∧ (field b 4 4).toNat = b.toNat / 16) ∧
  ∀ p o d f : Nat,
    (∃ (q : Bool) (k : BitVec 4), (RawInstr.jne p o).toInstr = .jne q k ∧ k.toNat = o % 16) ∧
    (∃ (q : Bool) (k : BitVec 4), (RawInstr.jg p o).toInstr = .jg q k ∧ k.toNat = o % 16) ∧
    (∃ (q : Bool) (k : BitVec 4), (RawInstr.jl p o).toInstr = .jl q k ∧ k.toNat = o % 16) ∧
    (∃ (e : Device) (k : BitVec 3), (RawInstr.ioi d f).toInstr = .ioi e k ∧ k.toNat = f % 8) ∧
    ∃ (e : Device) (k : BitVec 3), (RawInstr.ior d f).toInstr = .ior e k ∧ k.toNat = f % 8

/-- The opcode map's eight (mask, match) pairs partition the 256 byte values, and the row a byte matches
is the instruction it decodes to (`30_encoding.md` section 4, the opcode map). -/
def Obligations.OpcodeMapPartitionsBytes : Prop :=
  ∀ b : Byte, ∃ r ∈ opcodeMap, matchingRows b = [r] ∧ r.mnemonic = mnemonic (decode b)

/-- A few words of the spec, one of each family, decode to the instructions it gives for them. -/
def Obligations.SampleWordsDecode : Prop :=
  decode 0x50#8 = .adi 10#5 ∧ decode 0x49#8 = .add true .a .g ∧ decode 0x12#8 = .sub false .g .a ∧
  decode 0x7B#8 = .jne true 7#4 ∧ decode 0x94#8 = .jg false 9#4 ∧ decode 0x65#8 = .jl false 6#4 ∧
  decode 0x06#8 = .ioi .cpu 0#3 ∧ decode 0x87#8 = .ior .cpu 4#3 ∧ decode 0x2E#8 = .ioi .keyboard 1#3 ∧
  decode 0x57#8 = .ior .screen 2#3 ∧ decode 0xFE#8 = .ioi .math 7#3

/-! ## Reset, image, fetch -/

/-- R24: after a reset, from whatever state, every register, flag and data byte is 0, `pc` is 0, the status
is running and the trace empty, and the inputs `IMem`, `N` and the configuration are not reset; the
model's reset state is such a state. -/
def Obligations.ResetClearsEverything : Prop :=
  (∀ s : State, s.resetAgain.imem = s.imem ∧ s.resetAgain.cfg = s.cfg) ∧
  ∀ t : State, (t = State.reset ∨ ∃ s : State, t = s.resetAgain) →
    (∀ r, t.x.get r = 0) ∧ t.sf = false ∧ t.zf = false ∧ t.pc = 0 ∧ (∀ k, t.read k = 0) ∧
    t.status = .running ∧ t.out = []

/-- The invariant holds at reset, after a reset of any state, and in the state a loaded image starts
from. Of its clauses, the canonical form of the data segment is the model's choice (log entry 13), the
range of `pc` is the spec's decision D5 and the explained status its decisions D6, D8, D11. -/
def Obligations.ResetMeetsInvariant : Prop :=
  Inv State.reset ∧ (∀ s : State, Inv s.resetAgain) ∧
  ∀ (c : Config) (f : List Byte) (t : State), loadImage c f = .ok t → Inv t

/-- The program image (`70_reset_and_hazards.md` section 2): an image is its two magic bytes and then one
instruction per byte; what is shorter or has another header is rejected. That an image of more than 4096
instructions is refused is the spec's decision D5. -/
def Obligations.ImageLoadsAfterMagic : Prop :=
  (∀ b0 b1 : Byte, checkMagic b0 b1 = true ↔ b0 = 0x8B#8 ∧ b1 = 0xCA#8) ∧
  ∀ (c : Config) (f : List Byte) (t : State), loadImage c f = .ok t ↔
    (f[0]? = some 0x8B#8 ∧ f[1]? = some 0xCA#8 ∧ f.length ≤ 4096 + 2 ∧
      t.imem.length = f.length - 2 ∧ (∀ k, t.imem[k]? = f[k + 2]?) ∧
      t = { State.reset with imem := t.imem, cfg := c })

/-- A step of a running machine is exactly the execution of the instruction its byte at `pc` decodes to;
moving `pc` is part of the execution (`41_control_transfer.md` section 1, The sequencer). -/
def Obligations.StepRunsDecodedInstruction : Prop :=
  ∀ (s : State) (i : Instr), s.status = .running → s.imem[s.pc]? = some (encode i) →
    step s = exec i s

/-- The model's own `withFetchWord`: whatever the state, the very next step runs the instruction the
decoder reads from the table word, and the placing changes only the byte at `pc`, the bytes that lead up
to it where the sequence was shorter, and a terminal status (log entry 3). -/
def Obligations.PlacedWordRunsNext : Prop :=
  ∀ (s : State) (w : Nat) (i : Instr), decodeTableWord 8 w = some i →
    step (s.withFetchWord 8 w) = exec i (s.withFetchWord 8 w) ∧
    s.withFetchWord 8 w = { s with imem := (s.withFetchWord 8 w).imem, status := .running } ∧
    ∀ k, k ≠ s.pc → k < s.imem.length → (s.withFetchWord 8 w).imem[k]? = s.imem[k]?

/-! ## Arithmetic -/

/-- The register resolver: one level of register indirection, through the low two bits
(`40_arithmetic.md` section 1). -/
def Obligations.ResolverFollowsOnePointer : Prop :=
  ∀ (x : Regs) (q : Reg),
    resolve x q false = q ∧ (resolve x q true).num = (x.get q).toNat % 4 ∧ (resolve x q true).num ≤ 3

/-- R71: `ADI` completes in every state; its result, flags, `pc` and frame, and its bytes. -/
def Obligations.AdiAddsImmediate : Prop :=
  ∀ (m : BitVec 5) (s : State),
    (encode (.adi m)).toNat = 8 * m.toNat ∧
    ∃ t, exec (.adi m) s = .next t ∧
      t.x.a.toNat = (s.x.a.toNat + m.toNat) % 256 ∧ t.sf = false ∧ (t.zf = true ↔ t.x.a = 0) ∧
      t.pc = s.pc + 1 ∧ SameRegsBut .a s t ∧ SameMemory s t ∧ SameRun s t

/-- R72: `ADD` completes in every state, direct and indirect: both ids are resolved in the state before;
its result, flags, `pc` and frame, and its bytes. -/
def Obligations.AddAddsSourceToDestination : Prop :=
  ∀ (n : Bool) (rs rd : Reg) (s : State),
    (encode (.add n rs rd)).toNat = 1 + 8 * n.toNat + 16 * rs.num + 64 * rd.num ∧
    ∃ t, exec (.add n rs rd) s = .next t ∧
      (t.x.get (resolve s.x rd n)).toNat =
        ((s.x.get (resolve s.x rd n)).toNat + (s.x.get (resolve s.x rs n)).toNat) % 256 ∧
      t.sf = false ∧ (t.zf = true ↔ t.x.get (resolve s.x rd n) = 0) ∧ t.pc = s.pc + 1 ∧
      SameRegsBut (resolve s.x rd n) s t ∧ SameMemory s t ∧ SameRun s t

/-- R73: `SUB` completes in every state: destination minus source, the borrow of the old values in `SF`;
the result is congruent to the difference, and a borrow and a zero result never come together. -/
def Obligations.SubSubtractsSourceFromDestination : Prop :=
  ∀ (n : Bool) (rs rd : Reg) (s : State),
    (encode (.sub n rs rd)).toNat = 2 + 8 * n.toNat + 16 * rs.num + 64 * rd.num ∧
    ∃ t, exec (.sub n rs rd) s = .next t ∧
      ((t.x.get (resolve s.x rd n)).toNat : Int) =
        ((s.x.get (resolve s.x rd n)).toNat - (s.x.get (resolve s.x rs n)).toNat : Int) % 256 ∧
      (t.sf = true ↔ (s.x.get (resolve s.x rd n)).toNat < (s.x.get (resolve s.x rs n)).toNat) ∧
      (t.zf = true ↔ t.x.get (resolve s.x rd n) = 0) ∧ ¬(t.sf = true ∧ t.zf = true) ∧
      t.pc = s.pc + 1 ∧ SameRegsBut (resolve s.x rd n) s t ∧ SameMemory s t ∧ SameRun s t

/-- The flag laws of all three instructions, and that none of them reads a flag: with any other flags
before, the same state results (`40_arithmetic.md` section 5). -/
def Obligations.ArithmeticFlagLaws : Prop :=
  ∀ (i : Instr) (s t : State), exec i s = .next t →
    (∀ m, i = .adi m → (t.zf = true ↔ t.x.a = 0) ∧ t.sf = false) ∧
    (∀ n rs rd, i = .add n rs rd → (t.zf = true ↔ t.x.get (resolve s.x rd n) = 0) ∧ t.sf = false) ∧
    (∀ n rs rd, i = .sub n rs rd → (t.zf = true ↔ t.x.get (resolve s.x rd n) = 0) ∧
      (t.sf = true ↔ (s.x.get (resolve s.x rd n)).toNat < (s.x.get (resolve s.x rs n)).toNat)) ∧
    (((∃ m, i = .adi m) ∨ (∃ n rs rd, i = .add n rs rd) ∨ ∃ n rs rd, i = .sub n rs rd) →
      ∀ p z, exec i { s with sf := p, zf := z } = .next t)

/-! ## Addresses and jumps -/

/-- A data address or jump target is `(H << 4)` OR the whole low component, always inside the segment; a
jump's 4-bit operand does not overlap; the source's own example, by its formula, is `0x030`
(`20_memory.md` section 4; `90_conflicts.md` C2, C3). -/
def Obligations.AddressIsHighRegisterOrLow : Prop :=
  (∀ h v : Byte, (ea h v).toNat = (h.toNat <<< 4 ||| v.toNat) ∧ (ea h v).toNat ≤ 0xFFF) ∧
  (∀ (h : Byte) (o : BitVec 4), (ea h (offByte o)).toNat = 16 * h.toNat + o.toNat) ∧
  ea 0x01#8 0x20#8 = 0x030#12 ∧
  ∀ (s : State) (o : BitVec 4), jumpTarget s false o = ea s.x.h (offByte o)

/-- The target of a jump, direct and through a pointer byte, which is OR-ed in whole under the same high
register (`20_memory.md` section 4 and `41_control_transfer.md` section 1, the target rule). -/
def Obligations.JumpTargetDirectAndPointer : Prop :=
  ∀ (s : State) (o : BitVec 4) (k : Addr), k.toNat = 16 * s.x.h.toNat + o.toNat →
    jumpTarget s false o = k ∧
    (jumpTarget s true o).toNat = (16 * s.x.h.toNat ||| (s.read k).toNat)

/-- R82: `JNE` under indexed dispatch, in every state: to the target when the zero flag is clear, else to
the next index; nothing else changes. -/
def Obligations.JneJumpsIfZeroClear : Prop :=
  ∀ (p : Bool) (o : BitVec 4) (s : State), s.cfg.dispatch = .indexed →
    (encode (.jne p o)).toNat = 3 + 8 * p.toNat + 16 * o.toNat ∧
    (s.zf = false → exec (.jne p o) s = .next { s with pc := (jumpTarget s p o).toNat }) ∧
    (s.zf = true → exec (.jne p o) s = .next { s with pc := s.pc + 1 })

/-- `JG` under indexed dispatch, in every state: to the target when the sign flag is set
(`41_control_transfer.md` section 3; taken as the source states it, decision D25). -/
def Obligations.JgJumpsIfSignSet : Prop :=
  ∀ (p : Bool) (o : BitVec 4) (s : State), s.cfg.dispatch = .indexed →
    (encode (.jg p o)).toNat = 4 + 8 * p.toNat + 16 * o.toNat ∧
    (s.sf = true → exec (.jg p o) s = .next { s with pc := (jumpTarget s p o).toNat }) ∧
    (s.sf = false → exec (.jg p o) s = .next { s with pc := s.pc + 1 })

/-- R84: `JL` under indexed dispatch, in every state: to the target when both flags are clear. -/
def Obligations.JlJumpsIfBothClear : Prop :=
  ∀ (p : Bool) (o : BitVec 4) (s : State), s.cfg.dispatch = .indexed →
    (encode (.jl p o)).toNat = 5 + 8 * p.toNat + 16 * o.toNat ∧
    (s.sf = false ∧ s.zf = false → exec (.jl p o) s = .next { s with pc := (jumpTarget s p o).toNat }) ∧
    (s.sf = true ∨ s.zf = true → exec (.jl p o) s = .next { s with pc := s.pc + 1 })

/-- Under linear dispatch (decision D1) no jump changes anything but `pc`, which goes to the next index
whatever the flags (`41_control_transfer.md` section 5). -/
def Obligations.LinearJumpsFallThrough : Prop :=
  ∀ (p : Bool) (o : BitVec 4) (s : State), s.cfg.dispatch = .linear →
    ∀ i ∈ [Instr.jne p o, .jg p o, .jl p o], exec i s = .next { s with pc := s.pc + 1 }

/-- Under linear dispatch every run, from any position and state, is over within `N + 1` steps
(`41_control_transfer.md` section 5). -/
def Obligations.LinearRunEndsWithinOnePass : Prop :=
  ∀ s : State, s.cfg.dispatch = .linear →
    ∃ t : State, Host.Core.run Sys2Proof.core (s.imem.length + 1) s = .next t ∧ t.status ≠ .running

/-- The two disciplines differ only in taken jumps: unless the byte at `pc` is a jump whose condition
holds, a step under either leads to the same state (`41_control_transfer.md` section 5). -/
def Obligations.DisciplinesAgreeUnlessJumpTaken : Prop :=
  ∀ (s : State) (d e : Discipline), (∀ b, s.fetch = some b → ¬JumpTaken s b) →
    ∃ t : State, step (s.under d) = .next (t.under d) ∧ step (s.under e) = .next (t.under e)

/-- A program without a jump runs alike under both disciplines, however long it runs
(`41_control_transfer.md` section 5). -/
def Obligations.JumpFreeProgramsIgnoreDiscipline : Prop :=
  ∀ (s : State) (d e : Discipline) (k : Nat), (∀ b ∈ s.imem, ¬IsJumpByte b) →
    ∃ t : State, Host.Core.run Sys2Proof.core k (s.under d) = .next (t.under d) ∧
      Host.Core.run Sys2Proof.core k (s.under e) = .next (t.under e)

/-! ## Device calls by `IOI` and `IOR` -/

/-- Cpu 0 by `IOI` or `IOR` halts the run and changes nothing else; that `pc` stays at the halting
instruction is the spec's decision D11 (`43_devices.md` section 2). -/
def Obligations.CpuZeroHalts : Prop :=
  ∀ (s : State) (i : Instr) (v : Byte), Calls s .cpu 0#3 i v →
    exec i s = .next { s with status := .halted }

/-- R61: the no-op calls change no state but `pc`, by `IOI` and by `IOR`; Keyboard 0 and 1 are not no-ops
but fatal; and the bytes of all of them. -/
def Obligations.NoOpCallsOnlyAdvance : Prop :=
  (∀ (s : State) (i : Instr) (v : Byte) (d : Device) (f : BitVec 3), Calls s d f i v →
    (d, f) ∈ [(Device.cpu, 1#3), (.cpu, 7#3), (.keyboard, 2#3), (.keyboard, 3#3), (.keyboard, 4#3),
      (.keyboard, 5#3), (.keyboard, 6#3), (.keyboard, 7#3), (.screen, 6#3), (.screen, 7#3), (.math, 6#3)] →
    exec i s = .next { s with pc := s.pc + 1 }) ∧
  (∀ (s : State) (i : Instr) (v : Byte) (f : BitVec 3), Calls s .keyboard f i v → f ∈ [0#3, 1#3] →
    ∃ t, exec i s = .next t ∧ t.status = .fatal .keyboardUnimplemented) ∧
  [encode (.ioi .cpu 1), encode (.ioi .cpu 7), encode (.ioi .keyboard 0), encode (.ioi .keyboard 1),
    encode (.ioi .keyboard 2), encode (.ioi .keyboard 3), encode (.ioi .keyboard 4),
    encode (.ioi .keyboard 5), encode (.ioi .keyboard 6), encode (.ioi .keyboard 7),
    encode (.ioi .screen 6), encode (.ioi .screen 7), encode (.ioi .math 6)] =
    [0x26#8, 0xE6#8, 0x0E#8, 0x2E#8, 0x4E#8, 0x6E#8, 0x8E#8, 0xAE#8, 0xCE#8, 0xEE#8, 0xD6#8, 0xF6#8, 0xDE#8] ∧
  ∀ (d : Device) (f : BitVec 3), encode (.ior d f) = encode (.ioi d f) + 1

/-- R103, R116, R117: Cpu 2 and Screen 3, 4 clear the accumulator and write no flag and no event;
and their bytes. -/
def Obligations.ClearCallsZeroAccumulator : Prop :=
  (∀ (s : State) (i : Instr) (v : Byte),
    Calls s .cpu 2#3 i v ∨ Calls s .screen 3#3 i v ∨ Calls s .screen 4#3 i v →
    exec i s = .next { s with x := { s.x with a := 0 }, pc := s.pc + 1 }) ∧
  [encode (.ioi .cpu 2), encode (.ior .cpu 2), encode (.ioi .screen 3), encode (.ior .screen 3),
    encode (.ioi .screen 4), encode (.ior .screen 4)] =
    [0x46#8, 0x47#8, 0x76#8, 0x77#8, 0x96#8, 0x97#8]

/-- R104: Cpu 3 loads the accumulator from `ea(v)`; no flag is written; and its bytes. -/
def Obligations.CpuThreeLoads : Prop :=
  (∀ (s : State) (i : Instr) (v : Byte), Calls s .cpu 3#3 i v →
    exec i s = .next { s with x := { s.x with a := s.read (ea s.x.h v) }, pc := s.pc + 1 }) ∧
  [encode (.ioi .cpu 3), encode (.ior .cpu 3)] = [0x66#8, 0x67#8]

/-- R105: Cpu 4 stores the accumulator at `ea(v)` and nowhere else; no flag and no register is written;
and its bytes. -/
def Obligations.CpuFourStores : Prop :=
  (∀ (s : State) (i : Instr) (v : Byte), Memory.wf s.dmem = true → Calls s .cpu 4#3 i v →
    ∃ t, exec i s = .next t ∧ t.read (ea s.x.h v) = s.x.a ∧
      (∀ k, k ≠ ea s.x.h v → t.read k = s.read k) ∧ t = { s with dmem := t.dmem, pc := s.pc + 1 }) ∧
  [encode (.ioi .cpu 4), encode (.ior .cpu 4)] = [0x86#8, 0x87#8]

/-- Cpu 5 loads through a pointer byte (`43_devices.md` section 2; that 5 is the load is the spec's
decision D10). -/
def Obligations.CpuFiveLoadsThroughPointer : Prop :=
  ∀ (s : State) (i : Instr) (v : Byte), Calls s .cpu 5#3 i v →
    exec i s = .next { s with
      x := { s.x with a := s.read (ea s.x.h (s.read (ea s.x.h v))) }, pc := s.pc + 1 }

/-- Cpu 6 stores through a pointer byte read before the store (`43_devices.md` section 2; that 6 is the
store is the spec's decision D10). -/
def Obligations.CpuSixStoresThroughPointer : Prop :=
  ∀ (s : State) (i : Instr) (v : Byte) (k : Addr), Memory.wf s.dmem = true → Calls s .cpu 6#3 i v →
    k = ea s.x.h (s.read (ea s.x.h v)) →
    ∃ t, exec i s = .next t ∧ t.read k = s.x.a ∧ (∀ j, j ≠ k → t.read j = s.read j) ∧
      t = { s with dmem := t.dmem, pc := s.pc + 1 }

/-- R110, R111: Keyboard 0 and 1 end the run fatally at this instruction and write nothing; and their
bytes. -/
def Obligations.KeyboardZeroOneAreFatal : Prop :=
  (∀ (s : State) (i : Instr) (v : Byte), Calls s .keyboard 0#3 i v ∨ Calls s .keyboard 1#3 i v →
    exec i s = .next { s with status := .fatal .keyboardUnimplemented }) ∧
  [encode (.ioi .keyboard 0), encode (.ior .keyboard 0), encode (.ioi .keyboard 1),
    encode (.ior .keyboard 1)] =
    [0x0E#8, 0x0F#8, 0x2E#8, 0x2F#8]

/-- R113, R114, R115, R118: Screen 0, 1, 2 and 5 append their event to the trace and write no other core
state; and their bytes. -/
def Obligations.ScreenCallsEmitEvents : Prop :=
  (∀ (s : State) (i : Instr) (v : Byte),
    (Calls s .screen 0#3 i v → exec i s = .next { s with out := s.out ++ [.screenRow v], pc := s.pc + 1 }) ∧
    (Calls s .screen 1#3 i v → exec i s = .next { s with out := s.out ++ [.screenCol v], pc := s.pc + 1 }) ∧
    (Calls s .screen 2#3 i v → exec i s = .next { s with out := s.out ++ [.screenChar v], pc := s.pc + 1 }) ∧
    (Calls s .screen 5#3 i v → exec i s = .next { s with out := s.out ++ [.screenClear], pc := s.pc + 1 })) ∧
  [encode (.ioi .screen 0), encode (.ior .screen 0), encode (.ioi .screen 1), encode (.ior .screen 1),
    encode (.ioi .screen 2), encode (.ior .screen 2), encode (.ioi .screen 5), encode (.ior .screen 5)] =
    [0x16#8, 0x17#8, 0x36#8, 0x37#8, 0x56#8, 0x57#8, 0xB6#8, 0xB7#8]

/-- Math 0, for every selector and both policies: the 16-bit product of the old accumulator and the
selected register goes to `A` (low) and `G` (high), `ZF` from the whole product, `SF` unchanged; a
selector above 3 under the fault policy raises before anything is written (`43_devices.md` section 5; the
policy is decision D8). -/
def Obligations.MathZeroMultiplies : Prop :=
  ∀ (s : State) (i : Instr) (v : Byte), Calls s .math 0#3 i v →
    (∀ r : Reg, (v.toNat ≤ 3 ∨ s.cfg.mathSel = .mask) → r.num = v.toNat % 4 →
      ∃ t, exec i s = .next t ∧
        t.x.a.toNat = s.x.a.toNat * (s.x.get r).toNat % 256 ∧
        t.x.g.toNat = s.x.a.toNat * (s.x.get r).toNat / 256 ∧
        (t.zf = true ↔ s.x.a.toNat * (s.x.get r).toNat = 0) ∧
        t = { s with x := { s.x with a := t.x.a, g := t.x.g }, zf := t.zf, pc := s.pc + 1 }) ∧
    (3 < v.toNat → s.cfg.mathSel = .fault →
      exec i s = .next { s with status := .fatal .indexOutOfBounds })

/-- Math 1, for every selector, divisor and both policies: the floor of the quotient goes to `A`, `ZF` from
it, `SF` and `G` unchanged; a selector above 3 under the fault policy raises first, a zero divisor raises
`DivideByZero` (`43_devices.md` section 5; unsigned floor and no remainder are decision D17, the order of
the checks D15). -/
def Obligations.MathOneDivides : Prop :=
  ∀ (s : State) (i : Instr) (v : Byte), Calls s .math 1#3 i v →
    (∀ r : Reg, (v.toNat ≤ 3 ∨ s.cfg.mathSel = .mask) → r.num = v.toNat % 4 →
      (s.x.get r ≠ 0 →
        ∃ t, exec i s = .next t ∧ t.x.a.toNat = s.x.a.toNat / (s.x.get r).toNat ∧
          (t.zf = true ↔ s.x.a.toNat < (s.x.get r).toNat) ∧
          t = { s with x := { s.x with a := t.x.a }, zf := t.zf, pc := s.pc + 1 }) ∧
      (s.x.get r = 0 → exec i s = .next { s with status := .fatal .divideByZero })) ∧
    (3 < v.toNat → s.cfg.mathSel = .fault →
      exec i s = .next { s with status := .fatal .indexOutOfBounds })

/-- R123, R124: Math 2 and 3 keep the accumulator and set `ZF` from it; `SF` is unchanged and the value is
not checked as a register id; and their bytes. -/
def Obligations.MathSelfAndOrKeepAccumulator : Prop :=
  (∀ (s : State) (i : Instr) (v : Byte), Calls s .math 2#3 i v ∨ Calls s .math 3#3 i v →
    exec i s = .next { s with zf := decide (s.x.a = 0), pc := s.pc + 1 }) ∧
  [encode (.ioi .math 2), encode (.ior .math 2), encode (.ioi .math 3), encode (.ior .math 3)] =
    [0x5E#8, 0x5F#8, 0x7E#8, 0x7F#8]

/-- R125, R126: Math 4 clears the accumulator and sets `ZF`; Math 5 complements it and sets `ZF` exactly
when it was `0xFF`; `SF` is unchanged and the value has no effect; and their bytes. -/
def Obligations.MathXorClearsNotComplements : Prop :=
  (∀ (s : State) (i : Instr) (v : Byte),
    (Calls s .math 4#3 i v → exec i s = .next { s with x := { s.x with a := 0 }, zf := true, pc := s.pc + 1 }) ∧
    (Calls s .math 5#3 i v → ∃ t, exec i s = .next t ∧ t.x.a.toNat = 255 - s.x.a.toNat ∧
      (t.zf = true ↔ s.x.a = 0xFF#8) ∧
      t = { s with x := { s.x with a := t.x.a }, zf := t.zf, pc := s.pc + 1 })) ∧
  [encode (.ioi .math 4), encode (.ior .math 4), encode (.ioi .math 5), encode (.ior .math 5)] =
    [0x9E#8, 0x9F#8, 0xBE#8, 0xBF#8]

/-- Math 7 writes both flags from bits 0 and 1 of the value, whichever the open parameter `FLAGBIT_SIGN`
says (decision D9): with 0, the sign flag from bit 0; with 1, from bit 1; 0 clears both and 3 sets both
whatever it is. No register and no other bit matters (`43_devices.md` section 5). -/
def Obligations.MathSevenWritesBothFlags : Prop :=
  ∀ (s : State) (i : Instr) (v : Byte), Calls s .math 7#3 i v →
    ∃ t, exec i s = .next t ∧ t = { s with sf := t.sf, zf := t.zf, pc := s.pc + 1 } ∧
      (s.cfg.flagbitSign = 0 → (t.sf = true ↔ v.toNat % 2 = 1) ∧ (t.zf = true ↔ v.toNat / 2 % 2 = 1)) ∧
      (s.cfg.flagbitSign = 1 → (t.sf = true ↔ v.toNat / 2 % 2 = 1) ∧ (t.zf = true ↔ v.toNat % 2 = 1)) ∧
      (v.toNat % 4 = 0 → t.sf = false ∧ t.zf = false) ∧ (v.toNat % 4 = 3 → t.sf = true ∧ t.zf = true)

/-! ## Terminal outcomes -/

/-- At `pc >= N` a running machine ends with `EndOfStream` and changes nothing else, an empty program at
once (`10_state.md` section 2; for a jump beyond the end this is the spec's decision D6). -/
def Obligations.RunningPastTheEndEnds : Prop :=
  (∀ s : State, s.status = .running → s.imem.length ≤ s.pc →
    step s = .next { s with status := .endOfStream }) ∧
  ∀ s : State, s.imem = [] → step s.resetAgain = .next { s.resetAgain with status := .endOfStream }

/-- A terminal state is frozen: no number of steps changes it (`60_exceptions.md` section 5; decision
D26). -/
def Obligations.TerminalStateIsFrozen : Prop :=
  ∀ (s : State) (k : Nat), s.status ≠ .running → Host.Core.run Sys2Proof.core k s = .next s

/-- The step that ends a run, by whatever outcome, changes the status and nothing else: fatal conditions
and halts are precise and leave `pc` at their instruction (`60_exceptions.md` section 4; decision D11). -/
def Obligations.EndingStepChangesOnlyStatus : Prop :=
  ∀ s t : State, step s = .next t → t.status ≠ .running → t = { s with status := t.status }

/-- `DivideByZero` is raised by Math 1 with a zero divisor and by nothing else; its code is 1 and nothing is
written (`60_exceptions.md` section 1; the selector policy is decision D8, the code D12). -/
def Obligations.DivideByZeroExactly : Prop :=
  causeCode .divideByZero = 1 ∧
  ∀ s t : State, s.status = .running → step s = .next t →
    ((t.status = .fatal .divideByZero ↔
      ∃ b ∈ [0x3E#8, 0x3F#8], s.fetch = some b ∧ ∃ v, PassedBy s b v ∧
        (v.toNat ≤ 3 ∨ s.cfg.mathSel = .mask) ∧ ∃ r : Reg, r.num = v.toNat % 4 ∧ s.x.get r = 0) ∧
    (t.status = .fatal .divideByZero → t = { s with status := t.status }))

/-- R142: `KeyboardUnimplemented` is raised by the four bytes of Keyboard 0 and 1, always, and by nothing
else; its code is 2. -/
def Obligations.KeyboardUnimplementedExactly : Prop :=
  causeCode .keyboardUnimplemented = 2 ∧
  ∀ s t : State, s.status = .running → step s = .next t →
    (t.status = .fatal .keyboardUnimplemented ↔ ∃ b ∈ [0x0E#8, 0x0F#8, 0x2E#8, 0x2F#8], s.fetch = some b)

/-- `IndexOutOfBounds` is raised by Math 0 and 1 with a value above 3 under the fault policy and by nothing
else; under the mask policy it is unreachable (`60_exceptions.md` section 1; decision D8). -/
def Obligations.IndexOutOfBoundsExactly : Prop :=
  causeCode .indexOutOfBounds = 3 ∧
  ∀ s t : State, s.status = .running → step s = .next t →
    (t.status = .fatal .indexOutOfBounds ↔ s.cfg.mathSel = .fault ∧
      ∃ b ∈ [0x1E#8, 0x1F#8, 0x3E#8, 0x3F#8], s.fetch = some b ∧ ∃ v, PassedBy s b v ∧ 3 < v.toNat)

/-- A running machine halts exactly at the two bytes of Cpu 0 (`42_io_dispatch.md` section 3; that no other
function halts is decision D21). -/
def Obligations.OnlyCpuZeroHalts : Prop :=
  ∀ s t : State, s.status = .running → step s = .next t →
    (t.status = .halted ↔ s.fetch = some 0x06#8 ∨ s.fetch = some 0x07#8)

/-- The status codes are 0 to 5, each for one status; 6 and 7 are never produced (`60_exceptions.md`
section 4; decision D12). -/
def Obligations.StatusCodesAreDistinct : Prop :=
  (∀ p q : Status, statusCode p = statusCode q → p = q) ∧ (∀ p : Status, (statusCode p).toNat ≤ 5) ∧
  statusCode .running = 0 ∧ statusCode .halted = 4 ∧ statusCode .endOfStream = 5 ∧
  ∀ c : Cause, statusCode (.fatal c) = causeCode c

/-! ## Whole-machine rules -/

/-- The invariant is kept by every step, from every state that meets it. Of its clauses, the canonical form
of the data segment is the model's choice (log entry 13), the range of `pc` is the spec's decision D5, and
that `pc` stays at the instruction that ended the run is its decision D11 (with D6 for the end of the
sequence and D8 for the selector policy). -/
def Obligations.StepKeepsInvariant : Prop :=
  ∀ s t : State, Inv s → step s = .next t → Inv t

/-- With at most `IMEM_DEPTH` instructions, `pc` never outgrows its 13 bits: a step from a `pc` in
`0 .. 4096` leaves it there (`10_state.md` section 2; decision D5). -/
def Obligations.PcFitsItsWidth : Prop :=
  imemDepth < 2 ^ pcWidth ∧
  ∀ s t : State, s.imem.length ≤ imemDepth → s.pc ≤ imemDepth → step s = .next t →
    t.pc ≤ imemDepth ∧ t.imem.length ≤ imemDepth

/-- `H` and `S` are changed by `ADD` and `SUB` only, and `G` only by them and by Math 0: there is no
implicit use of the stack pointer (`10_state.md` section 1). -/
def Obligations.OnlyAddSubChangeHighAndStack : Prop :=
  ∀ (i : Instr) (s t : State), exec i s = .next t →
    (∀ n rs rd, i ≠ .add n rs rd ∧ i ≠ .sub n rs rd) →
    t.x.h = s.x.h ∧ t.x.s = s.x.s ∧ ((∀ v, ¬Calls s .math 0#3 i v) → t.x.g = s.x.g)

/-- The flags' writers: only `ADI`, `ADD`, `SUB` and Math 7 change the sign flag; only these and Math 0 to 5
change the zero flag (`10_state.md` section 3). -/
def Obligations.OnlyListedWritersChangeFlags : Prop :=
  ∀ (i : Instr) (s t : State), exec i s = .next t →
    (∀ m n rs rd, i ≠ .adi m ∧ i ≠ .add n rs rd ∧ i ≠ .sub n rs rd) →
    ((∀ v, ¬Calls s .math 7#3 i v) → t.sf = s.sf) ∧
    ((∀ v f, f ≠ 6#3 → ¬Calls s .math f i v) → t.zf = s.zf)

/-- Only Cpu 4 and 6 change the data segment, and only the one byte at their final address
(`10_state.md` section 6, `20_memory.md` section 3). -/
def Obligations.OnlyCpuStoresChangeMemory : Prop :=
  ∀ (i : Instr) (s t : State), Memory.wf s.dmem = true → exec i s = .next t →
    ∀ k : Addr, t.read k ≠ s.read k →
      t.read k = s.x.a ∧ ∃ v, (Calls s .cpu 4#3 i v ∧ k = ea s.x.h v) ∨
        (Calls s .cpu 6#3 i v ∧ k = ea s.x.h (s.read (ea s.x.h v)))

/-- R39: stores are never seen by instruction fetch, and no instruction and no step writes `IMem`. -/
def Obligations.InstructionMemoryIsNeverWritten : Prop :=
  (∀ (s : State) (k : Addr) (v : Byte), (s.write k v).fetch = s.fetch) ∧
  (∀ (i : Instr) (s t : State), exec i s = .next t → t.imem = s.imem) ∧
  ∀ (k : Nat) (s t : State), Host.Core.run Sys2Proof.core k s = .next t → t.imem = s.imem ∧ t.cfg = s.cfg

/-- The output trace only grows, by at most one event a step, and only by a Screen call
(`42_io_dispatch.md` section 3; events are decision D14). -/
def Obligations.TraceOnlyGrowsByScreenCalls : Prop :=
  ∀ s t : State, step s = .next t →
    t.out = s.out ∨
    ∃ e b f v, t.out = s.out ++ [e] ∧ s.fetch = some b ∧ Calls s .screen f (decode b) v ∧
      ((f = 0#3 ∧ e = .screenRow v) ∨ (f = 1#3 ∧ e = .screenCol v) ∨ (f = 2#3 ∧ e = .screenChar v) ∨
        (f = 5#3 ∧ e = .screenClear))

/-- No run reads its output trace: whatever the trace before, the run goes the same way and appends the
same events (`10_state.md` section 7, `42_io_dispatch.md` section 3). -/
def Obligations.RunNeverReadsTrace : Prop :=
  ∀ (k : Nat) (s : State), ∃ (t : State) (es : List Event), ∀ o : List Event,
    Host.Core.run Sys2Proof.core k { s with out := o } = .next { t with out := o ++ es }
end

