-- ==== Sys2Proof/Laws/Encoding.lean ====
section
/-! SUPPORT. Small facts about ids, fields and well-formedness. -/

namespace Sys2Proof

theorem Reg.num_lt (r : Reg) : r.num < 4 := by cases r <;> decide

theorem Device.num_lt (d : Device) : d.num < 4 := by cases d <;> decide

theorem Reg.num_inj {r q : Reg} (h : r.num = q.num) : r = q := by
  cases r <;> cases q <;> first | rfl | exact absurd h (by decide)

theorem regOfId_num (id : BitVec 2) : (regOfId id).num = id.toNat := by
  revert id; decide

theorem deviceOfId_num (id : BitVec 2) : (deviceOfId id).num = id.toNat := by
  revert id; decide

@[simp] theorem regOfId_regId (r : Reg) : regOfId (regId r) = r := by cases r <;> rfl

@[simp] theorem deviceOfId_deviceId (d : Device) : deviceOfId (deviceId d) = d := by cases d <;> rfl

@[simp] theorem regId_regOfId (id : BitVec 2) : regId (regOfId id) = id := by revert id; decide

@[simp] theorem deviceId_deviceOfId (id : BitVec 2) : deviceId (deviceOfId id) = id := by revert id; decide

/-- The register whose id is the low two bits of a number. -/
theorem regOfId_ofNat_num (n : Nat) : (regOfId (BitVec.ofNat 2 n)).num = n % 4 := by
  rw [regOfId_num, BitVec.toNat_ofNat]

/-- Every instruction is well formed: its fields have the widths of its format (R60). -/
theorem Instr.wf_all (i : Instr) : i.wf = true := by
  cases i with
  | adi imm5 => simp only [Instr.wf, Instr.raw, RawInstr.wf, decide_eq_true_eq]; omega
  | add ind rs rd => cases ind <;> cases rs <;> cases rd <;> rfl
  | sub ind rs rd => cases ind <;> cases rs <;> cases rd <;> rfl
  | jne ptr off4 => cases ptr <;> simp only [Instr.wf, Instr.raw, RawInstr.wf, Bool.and_eq_true, decide_eq_true_eq] <;> exact ⟨by decide, off4.isLt⟩
  | jg ptr off4 => cases ptr <;> simp only [Instr.wf, Instr.raw, RawInstr.wf, Bool.and_eq_true, decide_eq_true_eq] <;> exact ⟨by decide, off4.isLt⟩
  | jl ptr off4 => cases ptr <;> simp only [Instr.wf, Instr.raw, RawInstr.wf, Bool.and_eq_true, decide_eq_true_eq] <;> exact ⟨by decide, off4.isLt⟩
  | ioi dev fn3 => simp only [Instr.wf, Instr.raw, RawInstr.wf, Bool.and_eq_true, decide_eq_true_eq]; exact ⟨dev.num_lt, fn3.isLt⟩
  | ior dev fn3 => simp only [Instr.wf, Instr.raw, RawInstr.wf, Bool.and_eq_true, decide_eq_true_eq]; exact ⟨dev.num_lt, fn3.isLt⟩

/-- Building an instruction from its own field numbers gives it back: masking loses nothing that fits
(R58). -/
theorem Instr.toInstr_raw (i : Instr) : i.raw.toInstr = i := by
  cases i with
  | adi imm5 => simp [Instr.raw, RawInstr.toInstr]
  | add ind rs rd => cases ind <;> cases rs <;> cases rd <;> rfl
  | sub ind rs rd => cases ind <;> cases rs <;> cases rd <;> rfl
  | jne ptr off4 => cases ptr <;> simp [Instr.raw, RawInstr.toInstr]
  | jg ptr off4 => cases ptr <;> simp [Instr.raw, RawInstr.toInstr]
  | jl ptr off4 => cases ptr <;> simp [Instr.raw, RawInstr.toInstr]
  | ioi dev fn3 => cases dev <;> simp [Instr.raw, RawInstr.toInstr, Device.num, deviceOfId]
  | ior dev fn3 => cases dev <;> simp [Instr.raw, RawInstr.toInstr, Device.num, deviceOfId]

/-- The eight values of a function selector. -/
theorem fn3_cases (f : BitVec 3) :
    f = 0#3 ∨ f = 1#3 ∨ f = 2#3 ∨ f = 3#3 ∨ f = 4#3 ∨ f = 5#3 ∨ f = 6#3 ∨ f = 7#3 := by
  revert f; decide

end Sys2Proof
end

