-- ==== Sys2Proof/Laws/State.lean ====
section
/-! SUPPORT. One lemma per field per named update of State, and the register file's, each true by
definition, so that no proof unfolds a record update. -/

namespace Sys2Proof.Machine

variable (s : State)

/-! ## `State.setReg` -/

@[simp] theorem State.setReg_x (r : Reg) (v : Byte) : (s.setReg r v).x = s.x.set r v := rfl
@[simp] theorem State.setReg_sf (r : Reg) (v : Byte) : (s.setReg r v).sf = s.sf := rfl
@[simp] theorem State.setReg_zf (r : Reg) (v : Byte) : (s.setReg r v).zf = s.zf := rfl
@[simp] theorem State.setReg_pc (r : Reg) (v : Byte) : (s.setReg r v).pc = s.pc := rfl
@[simp] theorem State.setReg_dmem (r : Reg) (v : Byte) : (s.setReg r v).dmem = s.dmem := rfl
@[simp] theorem State.setReg_status (r : Reg) (v : Byte) : (s.setReg r v).status = s.status := rfl
@[simp] theorem State.setReg_out (r : Reg) (v : Byte) : (s.setReg r v).out = s.out := rfl
@[simp] theorem State.setReg_imem (r : Reg) (v : Byte) : (s.setReg r v).imem = s.imem := rfl
@[simp] theorem State.setReg_cfg (r : Reg) (v : Byte) : (s.setReg r v).cfg = s.cfg := rfl

/-! ## `State.setFlags` -/

@[simp] theorem State.setFlags_x (sf zf : Bool) : (s.setFlags sf zf).x = s.x := rfl
@[simp] theorem State.setFlags_sf (sf zf : Bool) : (s.setFlags sf zf).sf = sf := rfl
@[simp] theorem State.setFlags_zf (sf zf : Bool) : (s.setFlags sf zf).zf = zf := rfl
@[simp] theorem State.setFlags_pc (sf zf : Bool) : (s.setFlags sf zf).pc = s.pc := rfl
@[simp] theorem State.setFlags_dmem (sf zf : Bool) : (s.setFlags sf zf).dmem = s.dmem := rfl
@[simp] theorem State.setFlags_status (sf zf : Bool) : (s.setFlags sf zf).status = s.status := rfl
@[simp] theorem State.setFlags_out (sf zf : Bool) : (s.setFlags sf zf).out = s.out := rfl
@[simp] theorem State.setFlags_imem (sf zf : Bool) : (s.setFlags sf zf).imem = s.imem := rfl
@[simp] theorem State.setFlags_cfg (sf zf : Bool) : (s.setFlags sf zf).cfg = s.cfg := rfl

/-! ## `State.setZero` -/

@[simp] theorem State.setZero_x (zf : Bool) : (s.setZero zf).x = s.x := rfl
@[simp] theorem State.setZero_sf (zf : Bool) : (s.setZero zf).sf = s.sf := rfl
@[simp] theorem State.setZero_zf (zf : Bool) : (s.setZero zf).zf = zf := rfl
@[simp] theorem State.setZero_pc (zf : Bool) : (s.setZero zf).pc = s.pc := rfl
@[simp] theorem State.setZero_dmem (zf : Bool) : (s.setZero zf).dmem = s.dmem := rfl
@[simp] theorem State.setZero_status (zf : Bool) : (s.setZero zf).status = s.status := rfl
@[simp] theorem State.setZero_out (zf : Bool) : (s.setZero zf).out = s.out := rfl
@[simp] theorem State.setZero_imem (zf : Bool) : (s.setZero zf).imem = s.imem := rfl
@[simp] theorem State.setZero_cfg (zf : Bool) : (s.setZero zf).cfg = s.cfg := rfl

/-! ## `State.goto` -/

@[simp] theorem State.goto_x (t : Nat) : (s.goto t).x = s.x := rfl
@[simp] theorem State.goto_sf (t : Nat) : (s.goto t).sf = s.sf := rfl
@[simp] theorem State.goto_zf (t : Nat) : (s.goto t).zf = s.zf := rfl
@[simp] theorem State.goto_pc (t : Nat) : (s.goto t).pc = t := rfl
@[simp] theorem State.goto_dmem (t : Nat) : (s.goto t).dmem = s.dmem := rfl
@[simp] theorem State.goto_status (t : Nat) : (s.goto t).status = s.status := rfl
@[simp] theorem State.goto_out (t : Nat) : (s.goto t).out = s.out := rfl
@[simp] theorem State.goto_imem (t : Nat) : (s.goto t).imem = s.imem := rfl
@[simp] theorem State.goto_cfg (t : Nat) : (s.goto t).cfg = s.cfg := rfl

/-! ## `State.advance` -/

@[simp] theorem State.advance_x : (s.advance).x = s.x := rfl
@[simp] theorem State.advance_sf : (s.advance).sf = s.sf := rfl
@[simp] theorem State.advance_zf : (s.advance).zf = s.zf := rfl
@[simp] theorem State.advance_pc : (s.advance).pc = s.pc + 1 := rfl
@[simp] theorem State.advance_dmem : (s.advance).dmem = s.dmem := rfl
@[simp] theorem State.advance_status : (s.advance).status = s.status := rfl
@[simp] theorem State.advance_out : (s.advance).out = s.out := rfl
@[simp] theorem State.advance_imem : (s.advance).imem = s.imem := rfl
@[simp] theorem State.advance_cfg : (s.advance).cfg = s.cfg := rfl

/-! ## `State.write` -/

@[simp] theorem State.write_x (a : Addr) (v : Byte) : (s.write a v).x = s.x := rfl
@[simp] theorem State.write_sf (a : Addr) (v : Byte) : (s.write a v).sf = s.sf := rfl
@[simp] theorem State.write_zf (a : Addr) (v : Byte) : (s.write a v).zf = s.zf := rfl
@[simp] theorem State.write_pc (a : Addr) (v : Byte) : (s.write a v).pc = s.pc := rfl
@[simp] theorem State.write_dmem (a : Addr) (v : Byte) : (s.write a v).dmem = memWrite s.dmem a v := rfl
@[simp] theorem State.write_status (a : Addr) (v : Byte) : (s.write a v).status = s.status := rfl
@[simp] theorem State.write_out (a : Addr) (v : Byte) : (s.write a v).out = s.out := rfl
@[simp] theorem State.write_imem (a : Addr) (v : Byte) : (s.write a v).imem = s.imem := rfl
@[simp] theorem State.write_cfg (a : Addr) (v : Byte) : (s.write a v).cfg = s.cfg := rfl

/-! ## `State.emit` -/

@[simp] theorem State.emit_x (e : Event) : (s.emit e).x = s.x := rfl
@[simp] theorem State.emit_sf (e : Event) : (s.emit e).sf = s.sf := rfl
@[simp] theorem State.emit_zf (e : Event) : (s.emit e).zf = s.zf := rfl
@[simp] theorem State.emit_pc (e : Event) : (s.emit e).pc = s.pc := rfl
@[simp] theorem State.emit_dmem (e : Event) : (s.emit e).dmem = s.dmem := rfl
@[simp] theorem State.emit_status (e : Event) : (s.emit e).status = s.status := rfl
@[simp] theorem State.emit_out (e : Event) : (s.emit e).out = s.out ++ [e] := rfl
@[simp] theorem State.emit_imem (e : Event) : (s.emit e).imem = s.imem := rfl
@[simp] theorem State.emit_cfg (e : Event) : (s.emit e).cfg = s.cfg := rfl

/-! ## `State.fatalEntry` -/

@[simp] theorem State.fatalEntry_x (c : Cause) : (s.fatalEntry c).x = s.x := rfl
@[simp] theorem State.fatalEntry_sf (c : Cause) : (s.fatalEntry c).sf = s.sf := rfl
@[simp] theorem State.fatalEntry_zf (c : Cause) : (s.fatalEntry c).zf = s.zf := rfl
@[simp] theorem State.fatalEntry_pc (c : Cause) : (s.fatalEntry c).pc = s.pc := rfl
@[simp] theorem State.fatalEntry_dmem (c : Cause) : (s.fatalEntry c).dmem = s.dmem := rfl
@[simp] theorem State.fatalEntry_status (c : Cause) : (s.fatalEntry c).status = .fatal c := rfl
@[simp] theorem State.fatalEntry_out (c : Cause) : (s.fatalEntry c).out = s.out := rfl
@[simp] theorem State.fatalEntry_imem (c : Cause) : (s.fatalEntry c).imem = s.imem := rfl
@[simp] theorem State.fatalEntry_cfg (c : Cause) : (s.fatalEntry c).cfg = s.cfg := rfl

/-! ## `State.haltEntry` -/

@[simp] theorem State.haltEntry_x : (s.haltEntry).x = s.x := rfl
@[simp] theorem State.haltEntry_sf : (s.haltEntry).sf = s.sf := rfl
@[simp] theorem State.haltEntry_zf : (s.haltEntry).zf = s.zf := rfl
@[simp] theorem State.haltEntry_pc : (s.haltEntry).pc = s.pc := rfl
@[simp] theorem State.haltEntry_dmem : (s.haltEntry).dmem = s.dmem := rfl
@[simp] theorem State.haltEntry_status : (s.haltEntry).status = .halted := rfl
@[simp] theorem State.haltEntry_out : (s.haltEntry).out = s.out := rfl
@[simp] theorem State.haltEntry_imem : (s.haltEntry).imem = s.imem := rfl
@[simp] theorem State.haltEntry_cfg : (s.haltEntry).cfg = s.cfg := rfl

/-! ## `State.endEntry` -/

@[simp] theorem State.endEntry_x : (s.endEntry).x = s.x := rfl
@[simp] theorem State.endEntry_sf : (s.endEntry).sf = s.sf := rfl
@[simp] theorem State.endEntry_zf : (s.endEntry).zf = s.zf := rfl
@[simp] theorem State.endEntry_pc : (s.endEntry).pc = s.pc := rfl
@[simp] theorem State.endEntry_dmem : (s.endEntry).dmem = s.dmem := rfl
@[simp] theorem State.endEntry_status : (s.endEntry).status = .endOfStream := rfl
@[simp] theorem State.endEntry_out : (s.endEntry).out = s.out := rfl
@[simp] theorem State.endEntry_imem : (s.endEntry).imem = s.imem := rfl
@[simp] theorem State.endEntry_cfg : (s.endEntry).cfg = s.cfg := rfl

/-! ## `State.placeNext` -/

@[simp] theorem State.placeNext_x (b : Byte) : (s.placeNext b).x = s.x := rfl
@[simp] theorem State.placeNext_sf (b : Byte) : (s.placeNext b).sf = s.sf := rfl
@[simp] theorem State.placeNext_zf (b : Byte) : (s.placeNext b).zf = s.zf := rfl
@[simp] theorem State.placeNext_pc (b : Byte) : (s.placeNext b).pc = s.pc := rfl
@[simp] theorem State.placeNext_dmem (b : Byte) : (s.placeNext b).dmem = s.dmem := rfl
@[simp] theorem State.placeNext_status (b : Byte) : (s.placeNext b).status = .running := rfl
@[simp] theorem State.placeNext_out (b : Byte) : (s.placeNext b).out = s.out := rfl
@[simp] theorem State.placeNext_imem (b : Byte) : (s.placeNext b).imem = placeByte s.imem s.pc b := rfl
@[simp] theorem State.placeNext_cfg (b : Byte) : (s.placeNext b).cfg = s.cfg := rfl

/-! ## Registers -/

@[simp] theorem Regs.get_a (x : Regs) : x.get .a = x.a := rfl
@[simp] theorem Regs.get_g (x : Regs) : x.get .g = x.g := rfl
@[simp] theorem Regs.get_s (x : Regs) : x.get .s = x.s := rfl
@[simp] theorem Regs.get_h (x : Regs) : x.get .h = x.h := rfl
@[simp] theorem Regs.set_a_a (x : Regs) (v : Byte) : (x.set .a v).a = v := rfl
@[simp] theorem Regs.set_a_g (x : Regs) (v : Byte) : (x.set .a v).g = x.g := rfl
@[simp] theorem Regs.set_a_s (x : Regs) (v : Byte) : (x.set .a v).s = x.s := rfl
@[simp] theorem Regs.set_a_h (x : Regs) (v : Byte) : (x.set .a v).h = x.h := rfl
@[simp] theorem Regs.set_g_a (x : Regs) (v : Byte) : (x.set .g v).a = x.a := rfl
@[simp] theorem Regs.set_g_g (x : Regs) (v : Byte) : (x.set .g v).g = v := rfl
@[simp] theorem Regs.set_g_s (x : Regs) (v : Byte) : (x.set .g v).s = x.s := rfl
@[simp] theorem Regs.set_g_h (x : Regs) (v : Byte) : (x.set .g v).h = x.h := rfl
@[simp] theorem Regs.set_s_a (x : Regs) (v : Byte) : (x.set .s v).a = x.a := rfl
@[simp] theorem Regs.set_s_g (x : Regs) (v : Byte) : (x.set .s v).g = x.g := rfl
@[simp] theorem Regs.set_s_s (x : Regs) (v : Byte) : (x.set .s v).s = v := rfl
@[simp] theorem Regs.set_s_h (x : Regs) (v : Byte) : (x.set .s v).h = x.h := rfl
@[simp] theorem Regs.set_h_a (x : Regs) (v : Byte) : (x.set .h v).a = x.a := rfl
@[simp] theorem Regs.set_h_g (x : Regs) (v : Byte) : (x.set .h v).g = x.g := rfl
@[simp] theorem Regs.set_h_s (x : Regs) (v : Byte) : (x.set .h v).s = x.s := rfl
@[simp] theorem Regs.set_h_h (x : Regs) (v : Byte) : (x.set .h v).h = v := rfl

/-- Reading the register just written. -/
@[simp] theorem Regs.get_set_same (x : Regs) (r : Reg) (v : Byte) : (x.set r v).get r = v := by
  cases r <;> rfl

/-- Reading another register. -/
theorem Regs.get_set_ne (x : Regs) {r q : Reg} (v : Byte) (h : q ≠ r) : (x.set r v).get q = x.get q := by
  cases r <;> cases q <;> first | rfl | exact absurd rfl h

/-- Two register files that read alike are equal. -/
theorem Regs.ext_get {x y : Regs} (h : ∀ r, x.get r = y.get r) : x = y := by
  have ha := h .a
  have hg := h .g
  have hs := h .s
  have hh := h .h
  cases x; cases y
  simp only [Regs.get] at ha hg hs hh
  simp only [ha, hg, hs, hh]

/-! ## Reads of the data segment -/

@[simp] theorem State.read_setReg (r : Reg) (v : Byte) (a : Addr) : (s.setReg r v).read a = s.read a := rfl
@[simp] theorem State.read_setFlags (sf zf : Bool) (a : Addr) : (s.setFlags sf zf).read a = s.read a := rfl
@[simp] theorem State.read_setZero (zf : Bool) (a : Addr) : (s.setZero zf).read a = s.read a := rfl
@[simp] theorem State.read_goto (t : Nat) (a : Addr) : (s.goto t).read a = s.read a := rfl
@[simp] theorem State.read_advance (a : Addr) : s.advance.read a = s.read a := rfl
@[simp] theorem State.read_emit (e : Event) (a : Addr) : (s.emit e).read a = s.read a := rfl
@[simp] theorem State.read_fatalEntry (c : Cause) (a : Addr) : (s.fatalEntry c).read a = s.read a := rfl
@[simp] theorem State.read_haltEntry (a : Addr) : s.haltEntry.read a = s.read a := rfl
@[simp] theorem State.read_endEntry (a : Addr) : s.endEntry.read a = s.read a := rfl

end Sys2Proof.Machine
end

