-- ==== Sys2Proof/Laws/Memory.lean ====
section
/-! SUPPORT. The data segment: a store is read back, every other byte reads as before, and the canonical
form is kept. -/

namespace Sys2Proof.Machine

/-- The form's bound may be lowered. -/
theorem cellsFrom_mono {lo lo' : Nat} {m : Memory} (h : lo' ≤ lo) (hm : cellsFrom lo m = true) :
    cellsFrom lo' m = true := by
  cases m with
  | nil => rfl
  | cons c m =>
    obtain ⟨j, b⟩ := c
    simp only [cellsFrom, Bool.and_eq_true, decide_eq_true_eq] at hm ⊢
    exact ⟨⟨⟨h.trans hm.1.1.1, hm.1.1.2⟩, hm.1.2⟩, hm.2⟩

/-- Below its bound a canonical list reads as unlisted. -/
theorem lookupCell_below {k lo : Nat} {m : Memory} (hm : cellsFrom lo m = true) (hk : k < lo) :
    lookupCell k m = unlistedByte := by
  induction m generalizing lo with
  | nil => rfl
  | cons c m ih =>
    obtain ⟨j, b⟩ := c
    simp only [cellsFrom, Bool.and_eq_true, decide_eq_true_eq] at hm
    have hj : j ≠ k := by omega
    simp only [lookupCell, hj, if_false]
    exact ih hm.2 (by omega)

/-- Storing keeps the canonical form. -/
theorem cellsFrom_storeCell {k lo : Nat} {v : Byte} {m : Memory} (hm : cellsFrom lo m = true)
    (hlo : lo ≤ k) (hk : k < dmemSize) : cellsFrom lo (storeCell k v m) = true := by
  induction m generalizing lo with
  | nil =>
    simp only [storeCell]
    split
    · rfl
    · simp_all [cellsFrom]
  | cons c m ih =>
    obtain ⟨j, b⟩ := c
    have hm' := hm
    simp only [cellsFrom, Bool.and_eq_true, decide_eq_true_eq] at hm
    simp only [storeCell]
    split
    · split
      · exact hm'
      · have hkj : k + 1 ≤ j := by omega
        simp_all [cellsFrom]
    · split
      · subst_vars
        split
        · exact cellsFrom_mono (by omega) hm.2
        · simp_all [cellsFrom]
      · simp only [cellsFrom, Bool.and_eq_true, decide_eq_true_eq]
        exact ⟨hm.1, ih hm.2 (by omega)⟩

/-- What any address reads as after a store. -/
theorem lookupCell_storeCell {k q lo : Nat} {v : Byte} {m : Memory} (hm : cellsFrom lo m = true) :
    lookupCell q (storeCell k v m) = if q = k then v else lookupCell q m := by
  induction m generalizing lo with
  | nil =>
    simp only [storeCell]
    split
    · subst_vars
      simp [lookupCell]
    · simp only [lookupCell, eq_comm]
  | cons c m ih =>
    obtain ⟨j, b⟩ := c
    have hm' := hm
    simp only [cellsFrom, Bool.and_eq_true, decide_eq_true_eq] at hm
    simp only [storeCell]
    split
    · rename_i hkj
      have hall : cellsFrom j ((j, b) :: m) = true := by
        simp only [cellsFrom, Bool.and_eq_true, decide_eq_true_eq]
        exact ⟨⟨⟨le_refl j, hm.1.1.2⟩, hm.1.2⟩, hm.2⟩
      split
      · split
        · subst_vars
          exact lookupCell_below hall hkj
        · rfl
      · rw [lookupCell]
        by_cases hq : q = k
        · simp [hq]
        · simp [hq, Ne.symm hq]
    · split
      · subst_vars
        split
        · split
          · subst_vars
            exact lookupCell_below hm.2 (by omega)
          · rename_i hqk
            simp [lookupCell, Ne.symm hqk]
        · rename_i hv
          by_cases hq : q = j
          · simp [hq, lookupCell]
          · simp [hq, Ne.symm hq, lookupCell]
      · rename_i hkj
        simp only [lookupCell]
        rw [ih hm.2]
        by_cases hq : q = k
        · subst_vars
          simp [Ne.symm hkj]
        · simp [hq]

/-- A store keeps the canonical form of the data segment. -/
theorem memWrite_wf {m : Memory} (a : Addr) (v : Byte) (hm : Memory.wf m = true) :
    Memory.wf (memWrite m a v) = true :=
  cellsFrom_storeCell hm (Nat.zero_le _) a.isLt

/-- Reading any address after a store (R32, R37). -/
theorem memRead_memWrite {m : Memory} (a b : Addr) (v : Byte) (hm : Memory.wf m = true) :
    memRead (memWrite m a v) b = if b = a then v else memRead m b := by
  have h := lookupCell_storeCell (k := a.toNat) (q := b.toNat) (v := v) hm
  simpa only [memRead, memWrite, BitVec.toNat_inj] using h

/-- Reading any address of a state after a store. -/
theorem State.read_write (s : State) (a b : Addr) (v : Byte) (hm : Memory.wf s.dmem = true) :
    (s.write a v).read b = if b = a then v else s.read b :=
  memRead_memWrite a b v hm

/-- Reset's data segment is canonical. -/
theorem reset_dmem_wf : Memory.wf State.reset.dmem = true := rfl

end Sys2Proof.Machine
end

