-- ==== Sys2Proof/Laws/Ops.lean ====
section
/-! SUPPORT. One lemma for each shared operation that says everything it can answer: the resolver, Math's
selection, a jump, the end of an I/O instruction, and a device function. -/

namespace Sys2Proof.Machine

/-! ## Operands -/

/-- The register a byte points to has its low two bits as its id (R70, R91). -/
theorem regOfByte_num (v : Byte) : (regOfByte v).num = v.toNat % 4 := by
  rw [regOfByte, regOfId_num, BitVec.toNat_setWidth]

/-- A register is the one a byte points to exactly when its number is the byte's low two bits. -/
theorem regOfByte_eq {v : Byte} {r : Reg} (h : r.num = v.toNat % 4) : regOfByte v = r :=
  Reg.num_inj ((regOfByte_num v).trans h.symm)

theorem resolve_direct (x : Regs) (id : Reg) : resolve x id false = id := rfl

theorem resolve_indirect (x : Regs) (id : Reg) : resolve x id true = regOfByte (x.get id) := rfl

/-- What Math's selection answers (R120). -/
theorem mathSelect_cases (p : MathSelPolicy) (v : Byte) :
    (mathSelect p v = some (regOfByte v) ∧ (v.toNat ≤ 3 ∨ p = .mask)) ∨
    (mathSelect p v = none ∧ 3 < v.toNat ∧ p = .fault) := by
  unfold mathSelect
  by_cases h : v.toNat ≤ 3
  · simp [h]
  · cases p <;> simp [h]; omega

/-! ## Jumps -/

/-- Where a jump goes (R80, R85). -/
theorem State.branch_eq (s : State) (c : Bool) (t : Addr) :
    s.branch c t = s.goto (if s.cfg.dispatch = .indexed ∧ c = true then t.toNat else s.pc + 1) := by
  unfold State.branch
  cases s.cfg.dispatch <;> cases c <;> rfl

/-! ## Fetch and placing -/

/-- A fetch answers a byte exactly inside the sequence. -/
theorem State.fetch_none {s : State} : s.fetch = none ↔ s.imem.length ≤ s.pc := by
  simp [State.fetch]

theorem State.fetch_some_lt {s : State} {b : Byte} (h : s.fetch = some b) : s.pc < s.imem.length := by
  by_contra hn
  rw [State.fetch_none.mpr (by omega)] at h
  cases h

/-! ## Devices -/

/-- What the invoking instruction does with a device's result. -/
theorem finishIo_cases (r : DeviceResult) (s : State) :
    (∃ t, r = .done t ∧ finishIo r s = t.advance) ∨ (r = .halt ∧ finishIo r s = s.haltEntry) ∨
    (∃ c, r = .raise c ∧ finishIo r s = s.fatalEntry c) := by
  cases r with
  | done t => exact .inl ⟨t, rfl, rfl⟩
  | halt => exact .inr (.inl ⟨rfl, rfl⟩)
  | raise c => exact .inr (.inr ⟨c, rfl, rfl⟩)

section DeviceTable

variable (v : Byte) (s : State)

/-! The dispatch table of R100, one equation per row. -/

theorem device_cpu0 : device .cpu 0#3 v s = .halt := rfl
theorem device_cpu1 : device .cpu 1#3 v s = .done s := rfl
theorem device_cpu2 : device .cpu 2#3 v s = .done (s.setReg .a 0) := rfl
theorem device_cpu3 : device .cpu 3#3 v s = .done (s.setReg .a (s.read (s.ea v))) := rfl
theorem device_cpu4 : device .cpu 4#3 v s = .done (s.write (s.ea v) s.x.a) := rfl
theorem device_cpu5 : device .cpu 5#3 v s = .done (s.setReg .a (s.read (s.eaPtr v))) := rfl
theorem device_cpu6 : device .cpu 6#3 v s = .done (s.write (s.eaPtr v) s.x.a) := rfl
theorem device_cpu7 : device .cpu 7#3 v s = .done s := rfl
theorem device_keyboard0 : device .keyboard 0#3 v s = .raise .keyboardUnimplemented := rfl
theorem device_keyboard1 : device .keyboard 1#3 v s = .raise .keyboardUnimplemented := rfl
theorem device_keyboard2 : device .keyboard 2#3 v s = .done s := rfl
theorem device_keyboard3 : device .keyboard 3#3 v s = .done s := rfl
theorem device_keyboard4 : device .keyboard 4#3 v s = .done s := rfl
theorem device_keyboard5 : device .keyboard 5#3 v s = .done s := rfl
theorem device_keyboard6 : device .keyboard 6#3 v s = .done s := rfl
theorem device_keyboard7 : device .keyboard 7#3 v s = .done s := rfl
theorem device_screen0 : device .screen 0#3 v s = .done (s.emit (.screenRow v)) := rfl
theorem device_screen1 : device .screen 1#3 v s = .done (s.emit (.screenCol v)) := rfl
theorem device_screen2 : device .screen 2#3 v s = .done (s.emit (.screenChar v)) := rfl
theorem device_screen3 : device .screen 3#3 v s = .done (s.setReg .a 0) := rfl
theorem device_screen4 : device .screen 4#3 v s = .done (s.setReg .a 0) := rfl
theorem device_screen5 : device .screen 5#3 v s = .done (s.emit .screenClear) := rfl
theorem device_screen6 : device .screen 6#3 v s = .done s := rfl
theorem device_screen7 : device .screen 7#3 v s = .done s := rfl
theorem device_math0 : device .math 0#3 v s = math0 v s := rfl
theorem device_math1 : device .math 1#3 v s = math1 v s := rfl
theorem device_math2 : device .math 2#3 v s = setAccumulatorZero s (s.x.a &&& s.x.a) := rfl
theorem device_math3 : device .math 3#3 v s = setAccumulatorZero s (s.x.a ||| s.x.a) := rfl
theorem device_math4 : device .math 4#3 v s = setAccumulatorZero s (s.x.a ^^^ s.x.a) := rfl
theorem device_math5 : device .math 5#3 v s = setAccumulatorZero s (~~~s.x.a) := rfl
theorem device_math6 : device .math 6#3 v s = .done s := rfl
theorem device_math7 : device .math 7#3 v s = .done (s.setFlags (flagSignOf s.cfg v) (flagZeroOf s.cfg v)) := rfl

end DeviceTable

/-- What Math 0 answers (R121). -/
theorem math0_cases (v : Byte) (s : State) :
    (math0 v s = .raise .indexOutOfBounds ∧ 3 < v.toNat ∧ s.cfg.mathSel = .fault) ∨
    ((v.toNat ≤ 3 ∨ s.cfg.mathSel = .mask) ∧
      math0 v s = .done (((s.setReg .a (lowByte (product s.x.a (s.x.get (regOfByte v))))).setReg .g
        (highByte (product s.x.a (s.x.get (regOfByte v))))).setZero
        (isZero16 (product s.x.a (s.x.get (regOfByte v)))))) := by
  rcases mathSelect_cases s.cfg.mathSel v with ⟨h, hp⟩ | ⟨h, hv, hp⟩
  · exact .inr ⟨hp, by rw [math0, h]⟩
  · exact .inl ⟨by rw [math0, h], hv, hp⟩

/-- What Math 1 answers (R122, R148). -/
theorem math1_cases (v : Byte) (s : State) :
    (math1 v s = .raise .indexOutOfBounds ∧ 3 < v.toNat ∧ s.cfg.mathSel = .fault) ∨
    ((v.toNat ≤ 3 ∨ s.cfg.mathSel = .mask) ∧ s.x.get (regOfByte v) = 0 ∧ math1 v s = .raise .divideByZero) ∨
    ((v.toNat ≤ 3 ∨ s.cfg.mathSel = .mask) ∧ s.x.get (regOfByte v) ≠ 0 ∧
      math1 v s = setAccumulatorZero s (quotient s.x.a (s.x.get (regOfByte v)))) := by
  rcases mathSelect_cases s.cfg.mathSel v with ⟨h, hp⟩ | ⟨h, hv, hp⟩
  · by_cases hz : s.x.get (regOfByte v) = 0
    · exact .inr (.inl ⟨hp, hz, by simp only [math1, h, hz, if_true]⟩)
    · exact .inr (.inr ⟨hp, hz, by simp only [math1, h, hz, if_false]⟩)
  · exact .inl ⟨by rw [math1, h], hv, hp⟩

/-- Everything a device function can do (R92, R100): halt, raise one of the fatal causes, or leave a
state that differs in the accumulator and flags, in `A`, `G` and `ZF` by a product, in one data byte, or
in one event. -/
theorem device_cases (d : Device) (f : BitVec 3) (v : Byte) (s : State) :
    (device d f v s = .halt ∧ d = .cpu ∧ f = 0#3) ∨
    (device d f v s = .raise .keyboardUnimplemented ∧ d = .keyboard ∧ (f = 0#3 ∨ f = 1#3)) ∨
    (device d f v s = .raise .indexOutOfBounds ∧ d = .math ∧ (f = 0#3 ∨ f = 1#3) ∧ 3 < v.toNat ∧
      s.cfg.mathSel = .fault) ∨
    (device d f v s = .raise .divideByZero ∧ d = .math ∧ f = 1#3 ∧
      (v.toNat ≤ 3 ∨ s.cfg.mathSel = .mask) ∧ s.x.get (regOfByte v) = 0) ∨
    (device d f v s = .done s) ∨
    (∃ b, device d f v s = .done (s.setReg .a b) ∧ d ≠ .math) ∨
    (device d f v s = .done (s.write (s.ea v) s.x.a) ∧ d = .cpu ∧ f = 4#3) ∨
    (device d f v s = .done (s.write (s.eaPtr v) s.x.a) ∧ d = .cpu ∧ f = 6#3) ∨
    (∃ e, device d f v s = .done (s.emit e) ∧ d = .screen) ∨
    (∃ lo hi z, device d f v s = .done (((s.setReg .a lo).setReg .g hi).setZero z) ∧ d = .math ∧ f = 0#3) ∨
    (∃ r z, device d f v s = .done ((s.setReg .a r).setZero z) ∧ d = .math ∧
      (f = 1#3 ∨ f = 2#3 ∨ f = 3#3 ∨ f = 4#3 ∨ f = 5#3)) ∨
    (∃ p z, device d f v s = .done (s.setFlags p z) ∧ d = .math ∧ f = 7#3) := by
  rcases fn3_cases f with h | h | h | h | h | h | h | h <;> subst h <;> cases d
  case inr.inl.math =>
    rcases math1_cases v s with ⟨h, hv, hp⟩ | ⟨hp, hz, h⟩ | ⟨hp, hz, h⟩
    · exact .inr (.inr (.inl ⟨h, rfl, .inr rfl, hv, hp⟩))
    · exact .inr (.inr (.inr (.inl ⟨h, rfl, rfl, hp, hz⟩)))
    · exact .inr (.inr (.inr (.inr (.inr (.inr (.inr (.inr (.inr (.inr (.inl ⟨_, _, h, rfl, .inl rfl⟩))))))))))
  case inl.math =>
    rcases math0_cases v s with ⟨h, hv, hp⟩ | ⟨-, h⟩
    · exact .inr (.inr (.inl ⟨h, rfl, .inl rfl, hv, hp⟩))
    · exact .inr (.inr (.inr (.inr (.inr (.inr (.inr (.inr (.inr (.inl ⟨_, _, _, h, rfl, rfl⟩)))))))))
  all_goals first
    | exact .inl ⟨rfl, rfl, rfl⟩
    | exact .inr (.inl ⟨rfl, rfl, .inl rfl⟩)
    | exact .inr (.inl ⟨rfl, rfl, .inr rfl⟩)
    | exact .inr (.inr (.inr (.inr (.inl rfl))))
    | exact .inr (.inr (.inr (.inr (.inr (.inl ⟨_, rfl, by decide⟩)))))
    | exact .inr (.inr (.inr (.inr (.inr (.inr (.inl ⟨rfl, rfl, rfl⟩))))))
    | exact .inr (.inr (.inr (.inr (.inr (.inr (.inr (.inl ⟨rfl, rfl, rfl⟩)))))))
    | exact .inr (.inr (.inr (.inr (.inr (.inr (.inr (.inr (.inl ⟨_, rfl, rfl⟩))))))))
    | exact .inr (.inr (.inr (.inr (.inr (.inr (.inr (.inr (.inr (.inr (.inl ⟨_, _, rfl, rfl, by decide⟩))))))))))
    | exact .inr (.inr (.inr (.inr (.inr (.inr (.inr (.inr (.inr (.inr (.inr ⟨_, _, rfl, rfl, rfl⟩))))))))))

end Sys2Proof.Machine
end

