-- ==== Sys2Proof/Laws/PerInstr.lean ====
section
/-! SUPPORT. Facts stated for every instruction as syntax, one lemma per constructor: the tag bits of the
encoding (`30_encoding.md` R52). -/

namespace Sys2Proof.Laws

/-- The number of the opcode tag (R52). -/
def opTag : Instr → Nat
  | .adi _ => 0
  | .add _ _ _ => 1
  | .sub _ _ _ => 2
  | .jne _ _ => 3
  | .jg _ _ => 4
  | .jl _ _ => 5
  | .ioi _ _ => 6
  | .ior _ _ => 7

namespace OpcodeTag

/-- Bits 2..0 of the encoding are the opcode tag. -/
def Statement (i : Instr) : Prop := (field (encode i) 0 3).toNat = opTag i

theorem adi (imm5 : BitVec 5) : Statement (.adi imm5) := by
  revert imm5; unfold Statement; decide

theorem add (ind : Bool) (rs rd : Reg) : Statement (.add ind rs rd) := by
  cases ind <;> cases rs <;> cases rd <;> rfl

theorem sub (ind : Bool) (rs rd : Reg) : Statement (.sub ind rs rd) := by
  cases ind <;> cases rs <;> cases rd <;> rfl

theorem jne (ptr : Bool) (off4 : BitVec 4) : Statement (.jne ptr off4) := by
  revert ptr off4; unfold Statement; decide

theorem jg (ptr : Bool) (off4 : BitVec 4) : Statement (.jg ptr off4) := by
  revert ptr off4; unfold Statement; decide

theorem jl (ptr : Bool) (off4 : BitVec 4) : Statement (.jl ptr off4) := by
  revert ptr off4; unfold Statement; decide

theorem ioi (dev : Device) (fn3 : BitVec 3) : Statement (.ioi dev fn3) := by
  revert fn3; unfold Statement; cases dev <;> decide

theorem ior (dev : Device) (fn3 : BitVec 3) : Statement (.ior dev fn3) := by
  revert fn3; unfold Statement; cases dev <;> decide

end OpcodeTag

end Sys2Proof.Laws
end

