-- ==== Sys2Proof/Laws/Step.lean ====
section
/-! SUPPORT. What an instruction and a step can do, said once, and the unfolding of a run. -/

namespace Sys2Proof.Machine

/-- What the invoked function's result is for an I/O instruction, with the value it passes (R90, R91). -/
theorem exec_ioi (d : Device) (f : BitVec 3) (s : State) :
    exec (.ioi d f) s = .next (finishIo (device d f s.x.a s) s) := rfl

theorem exec_ior (d : Device) (f : BitVec 3) (s : State) :
    exec (.ior d f) s = .next (finishIo (device d f (s.x.get (regOfByte s.x.a)) s) s) := rfl

theorem exec_adi (imm5 : BitVec 5) (s : State) :
    exec (.adi imm5) s = .next (((s.setReg .a (s.x.a + immByte imm5)).setFlags false
      (isZero (s.x.a + immByte imm5))).advance) := rfl

theorem exec_add (ind : Bool) (rs rd : Reg) (s : State) :
    exec (.add ind rs rd) s = .next (((s.setReg (resolve s.x rd ind)
      (s.x.get (resolve s.x rd ind) + s.x.get (resolve s.x rs ind))).setFlags false
      (isZero (s.x.get (resolve s.x rd ind) + s.x.get (resolve s.x rs ind)))).advance) := rfl

theorem exec_sub (ind : Bool) (rs rd : Reg) (s : State) :
    exec (.sub ind rs rd) s = .next (((s.setReg (resolve s.x rd ind)
      (s.x.get (resolve s.x rd ind) - s.x.get (resolve s.x rs ind))).setFlags
      (borrow (s.x.get (resolve s.x rd ind)) (s.x.get (resolve s.x rs ind)))
      (isZero (s.x.get (resolve s.x rd ind) - s.x.get (resolve s.x rs ind)))).advance) := rfl

theorem exec_jne (ptr : Bool) (off4 : BitVec 4) (s : State) :
    exec (.jne ptr off4) s = .next (s.branch (condJne s) (jumpTarget s ptr off4)) := rfl

theorem exec_jg (ptr : Bool) (off4 : BitVec 4) (s : State) :
    exec (.jg ptr off4) s = .next (s.branch (condJg s) (jumpTarget s ptr off4)) := rfl

theorem exec_jl (ptr : Bool) (off4 : BitVec 4) (s : State) :
    exec (.jl ptr off4) s = .next (s.branch (condJl s) (jumpTarget s ptr off4)) := rfl

/-- Everything an instruction can do when it answers a next state: write a register and both flags and
advance; only move `pc`, to a 12-bit target or to the next index; or end an I/O call. -/
theorem exec_cases {i : Instr} {s t : State} (h : exec i s = .next t) :
    (∃ r v p z, t = ((s.setReg r v).setFlags p z).advance ∧
      ((∃ m, i = .adi m) ∨ (∃ n q q', i = .add n q q') ∨ (∃ n q q', i = .sub n q q')) ∧ ((∃ m, i = .adi m) → r = .a)) ∨
    (∃ c w, t = s.branch c w ∧ ((∃ p o, i = .jne p o) ∨ (∃ p o, i = .jg p o) ∨ (∃ p o, i = .jl p o))) ∨
    (∃ d f v, t = finishIo (device d f v s) s ∧
      ((i = .ioi d f ∧ v = s.x.a) ∨ (i = .ior d f ∧ v = s.x.get (regOfByte s.x.a)))) := by
  cases i with
  | adi m => rw [exec_adi] at h; cases h; exact .inl ⟨_, _, _, _, rfl, .inl ⟨m, rfl⟩, fun _ => rfl⟩
  | add n q q' =>
    rw [exec_add] at h; cases h
    exact .inl ⟨_, _, _, _, rfl, .inr (.inl ⟨n, q, q', rfl⟩), fun ⟨_, hm⟩ => nomatch hm⟩
  | sub n q q' =>
    rw [exec_sub] at h; cases h
    exact .inl ⟨_, _, _, _, rfl, .inr (.inr ⟨n, q, q', rfl⟩), fun ⟨_, hm⟩ => nomatch hm⟩
  | jne p o => rw [exec_jne] at h; cases h; exact .inr (.inl ⟨_, _, rfl, .inl ⟨p, o, rfl⟩⟩)
  | jg p o => rw [exec_jg] at h; cases h; exact .inr (.inl ⟨_, _, rfl, .inr (.inl ⟨p, o, rfl⟩)⟩)
  | jl p o => rw [exec_jl] at h; cases h; exact .inr (.inl ⟨_, _, rfl, .inr (.inr ⟨p, o, rfl⟩)⟩)
  | ioi d f => rw [exec_ioi] at h; cases h; exact .inr (.inr ⟨d, f, _, rfl, .inl ⟨rfl, rfl⟩⟩)
  | ior d f => rw [exec_ior] at h; cases h; exact .inr (.inr ⟨d, f, _, rfl, .inr ⟨rfl, rfl⟩⟩)

/-- Everything a step can do (R80, R15, R152). -/
theorem step_cases (s : State) :
    (s.status ≠ .running ∧ step s = .next s) ∨
    (s.status = .running ∧ s.fetch = none ∧ step s = .next s.endEntry) ∨
    (∃ b, s.status = .running ∧ s.fetch = some b ∧ step s = exec (decode b) s) := by
  unfold step
  cases hs : s.status with
  | running =>
    cases hf : s.fetch with
    | none => exact .inr (.inl ⟨rfl, rfl, rfl⟩)
    | some b => exact .inr (.inr ⟨b, rfl, rfl, rfl⟩)
  | halted => exact .inl ⟨nofun, rfl⟩
  | endOfStream => exact .inl ⟨nofun, rfl⟩
  | fatal c => exact .inl ⟨nofun, rfl⟩

/-- A run of no steps. -/
theorem run_zero (s : State) : Host.Core.run Sys2Proof.core 0 s = .next s := rfl

/-- A run whose first step answers a next state. -/
theorem run_succ {s t : State} (k : Nat) (h : step s = .next t) :
    Host.Core.run Sys2Proof.core (k + 1) s = Host.Core.run Sys2Proof.core k t := by
  have h' : Sys2Proof.core.step s = .next t := h
  simp only [Host.Core.run, h']

end Sys2Proof.Machine
end

