-- ==== Sys2Proof/Tests/Slice0.lean ====
section
/-! SUPPORT. Small tests. Expected results are the spec's own: `95_test_vectors.md` (section and row named
at each test), or computed by hand from the rule named. Then, for every statement with hypotheses, a
witness that meets them. -/

namespace Sys2Proof.Tests

open Sys2Proof.Machine

/-! ## Helpers -/

/-- The reset state with given registers. -/
def regs (a g s h : Byte) : State := { State.reset with x := ⟨a, g, s, h⟩ }

/-- A state with given flags. -/
def flags (s : State) (sf zf : Bool) : State := { s with sf := sf, zf := zf }

/-- A state with a given data segment. -/
def mem (s : State) (m : Memory) : State := { s with dmem := m }

/-- A state with given instruction bytes. -/
def code (s : State) (c : List Byte) : State := { s with imem := c }

/-- A state under the other parameters. -/
def param (s : State) (d : Discipline) (p : MathSelPolicy) (b : Fin 2) : State := { s with cfg := ⟨d, p, b⟩ }

/-- The state after one step on the byte `w`. -/
def go (s : State) (w : Nat) : State :=
  match step (s.withFetchWord 8 w) with
  | .next t => t
  | .fault _ => s
  | .refused _ => s

/-! ## WellFormed: an ill-formed term for each check (R53 to R56) -/

theorem test_wf_refuses_imm5_32 : (RawInstr.adi 32).wf = false := by decide
theorem test_wf_refuses_add_ind_2 : (RawInstr.add 2 0 0).wf = false := by decide
theorem test_wf_refuses_add_rs_4 : (RawInstr.add 0 4 0).wf = false := by decide
theorem test_wf_refuses_add_rd_4 : (RawInstr.add 0 0 4).wf = false := by decide
theorem test_wf_refuses_sub_fields :
    (RawInstr.sub 2 0 0).wf = false ∧ (RawInstr.sub 0 4 0).wf = false ∧ (RawInstr.sub 0 0 4).wf = false := by decide
theorem test_wf_refuses_jump_ptr_2 :
    (RawInstr.jne 2 0).wf = false ∧ (RawInstr.jg 2 0).wf = false ∧ (RawInstr.jl 2 0).wf = false := by decide
theorem test_wf_refuses_jump_off4_16 :
    (RawInstr.jne 0 16).wf = false ∧ (RawInstr.jg 0 16).wf = false ∧ (RawInstr.jl 0 16).wf = false := by decide
theorem test_wf_refuses_io_dev_4 : (RawInstr.ioi 4 0).wf = false ∧ (RawInstr.ior 4 0).wf = false := by decide
theorem test_wf_refuses_io_fn3_8 : (RawInstr.ioi 0 8).wf = false ∧ (RawInstr.ior 0 8).wf = false := by decide
theorem test_wf_accepts_largest_fields :
    (RawInstr.adi 31).wf = true ∧ (RawInstr.add 1 3 3).wf = true ∧ (RawInstr.jne 1 15).wf = true ∧
    (RawInstr.ior 3 7).wf = true := by decide

/-! ## Decode: words written out bit by bit, bit 7 first (`30_encoding.md` R53 to R56) -/

theorem test_decode_adi : decode 0b01010000#8 = .adi 10#5 := by decide
theorem test_decode_add_indirect : decode 0b01001001#8 = .add true .a .g := by decide
theorem test_decode_add_source_high_bits : decode 0b11100001#8 = .add false .s .h := by decide
theorem test_decode_sub : decode 0b00010010#8 = .sub false .g .a := by decide
theorem test_decode_jne_pointer : decode 0b01111011#8 = .jne true 7#4 := by decide
theorem test_decode_jg : decode 0b10010100#8 = .jg false 9#4 := by decide
theorem test_decode_jl : decode 0b01100101#8 = .jl false 6#4 := by decide
theorem test_decode_ioi_math : decode 0b00111110#8 = .ioi .math 1#3 := by decide
theorem test_decode_ioi_keyboard : decode 0b10001110#8 = .ioi .keyboard 4#3 := by decide
theorem test_decode_ior_screen : decode 0b01010111#8 = .ior .screen 2#3 := by decide
theorem test_decode_no_byte : decodeBytes [] = .error .noByte := rfl
/-- R63's notation on four rows of section 3. -/
theorem test_asm_listing : asm (decode 0x49#8) = "ADD* A, G" ∧ asm (decode 0x7B#8) = "JNE* 7" ∧
    asm (decode 0xFF#8) = "IOR MATH, 7" ∧ asm (decode 0xF8#8) = "ADI 31" := by decide
/-- R64. -/
theorem test_pseudo_bytes : encode hlt = 0x06#8 ∧ encode nop = 0x26#8 := by decide
/-- The host's reading of a table word. -/
theorem test_table_word : decodeTableWord 8 0x94 = some (.jg false 9#4) ∧ decodeTableWord 16 0x94 = none := by decide

/-! ## Instructions -/

/-- 2.1 row 1 (the source's S3). -/
theorem test_adi_wraps : (go (regs 0xFA 0 0 0) 0x50).x.a = 0x04 ∧ (go (regs 0xFA 0 0 0) 0x50).zf = false := by decide
/-- 2.1 row 4. -/
theorem test_adi_wraps_to_zero : (go (regs 0xE1 0 0 0) 0xF8).x.a = 0 ∧ (go (regs 0xE1 0 0 0) 0xF8).zf = true := by decide
/-- 2.2 row 6: both pointers lead to `G`. -/
theorem test_add_indirect : (go (regs 5 5 9 0) 0x89).x = ⟨5, 0x0A, 9, 0⟩ := by decide
/-- 2.2 row 2. -/
theorem test_add_doubles : (go (regs 0x80 0 0 0) 0x01).x.a = 0 ∧ (go (regs 0x80 0 0 0) 0x01).zf = true := by decide
/-- 2.3 row 1 (the source's S5). -/
theorem test_sub_borrows : (go (regs 0x0A 5 0 0) 0x42).x.g = 0xFB ∧ (go (regs 0x0A 5 0 0) 0x42).sf = true := by decide
/-- 2.3 row 4: bit 7 of the result is not the sign flag. -/
theorem test_sub_sign_is_borrow : (go (regs 1 0x90 0 0) 0x42).x.g = 0x8F ∧ (go (regs 1 0x90 0 0) 0x42).sf = false := by decide
/-- 2.4 row 12. -/
theorem test_jne_pointer : (go (mem (regs 0 0 0 1) [(0x017, 0x25)]) 0x7B).pc = 53 := by decide
/-- 2.4 row 2, at index 0. -/
theorem test_jne_not_taken : (go (flags (regs 0 0 0 0) false true) 0x33).pc = 1 := by decide
/-- 2.4 row 6. -/
theorem test_jg_taken : (go (flags (regs 0 0 0 0) true true) 0x94).pc = 9 := by decide
/-- 2.4 row 14, for `JG`: linear dispatch. -/
theorem test_jg_linear : (go (param (flags (regs 0 0 0 0) true false) .linear .fault 0) 0x94).pc = 1 := by decide
/-- 2.4 row 7. -/
theorem test_jl_paged : (go (regs 0 0 0 2) 0x65).pc = 38 := by decide
/-- 2.4 row 8, at index 0. -/
theorem test_jl_not_taken : (go (flags (regs 0 0 0 0) true false) 0x65).pc = 1 := by decide
/-- 2.5 rows 1 and 3: the value passed. -/
theorem test_io_value : (go (regs 0x41 0 0 0) 0x56).out = [.screenChar 65] ∧
    (go (regs 0x0A 0 0x43 0) 0x57).out = [.screenChar 67] := by decide
/-- 2.6 rows 5 and 9 (the corrected S6). -/
theorem test_cpu_loads : (go (mem (regs 0x20 0 0 1) [(0x030, 5)]) 0x66).x.a = 5 ∧
    (go (mem (regs 0x20 0 0 1) [(0x015, 0x77), (0x030, 5)]) 0xA6).x.a = 0x77 := by decide
/-- 2.6 rows 7 and 12. -/
theorem test_cpu_stores : (go (regs 0xFF 0 0 0xFF) 0x86).dmem = [(0xFFF, 0xFF)] ∧
    (go (mem (regs 0x0D 0x40 0 0) [(0x040, 0x41)]) 0xC7).dmem = [(0x040, 0x41), (0x041, 0x0D)] := by decide
/-- 2.6 rows 1 and 3. -/
theorem test_cpu_halt_clear : (go (regs 5 0 0 0) 0x06) = { code (regs 5 0 0 0) [0x06#8] with status := .halted } ∧
    (go (regs 0x37 0 0 0) 0x46).x.a = 0 ∧ (go (regs 0x37 0 0 0) 0x46).zf = false := by decide
/-- 2.7 rows 2 and 3. -/
theorem test_keyboard : (go (regs 3 0 0 0) 0x2F).status = .fatal .keyboardUnimplemented ∧
    (go (regs 3 0 0 0) 0x2F).pc = 0 ∧ (go (regs 3 0 0 0) 0x4E).pc = 1 := by decide
/-- 2.8 rows 1, 2, 4 and 6. -/
theorem test_screen : (go (regs 0x0C 0 0 0) 0x16).out = [.screenRow 12] ∧ (go (regs 0x28 0 0 0) 0x36).out = [.screenCol 40] ∧
    (go (regs 0x37 0 0 0) 0x76).x.a = 0 ∧ (go (regs 9 0 0 0) 0xB6).out = [.screenClear] := by decide
/-- 2.9 rows 1, 6 and 8. -/
theorem test_math_multiply : (go (regs 0x16 0x0D 1 0) 0x1F).x = ⟨0x1E, 1, 1, 0⟩ ∧
    (go (regs 2 0 0x80 0) 0x1E).x = ⟨0, 1, 0x80, 0⟩ ∧ (go (regs 2 0 0x80 0) 0x1E).zf = false ∧
    (go (param (regs 0x16 0x0D 3 0) .indexed .mask 0) 0x1E).x.a = 0x42 := by decide
/-- 2.9 rows 9, 10 and 13. -/
theorem test_math_divide : (go (regs 0 0 0 0) 0x3E).status = .fatal .divideByZero ∧ (go (regs 2 0 5 0) 0x3E).zf = true ∧
    (go (regs 0xC8 7 1 0) 0x3F).status = .fatal .indexOutOfBounds := by decide
/-- 2.9 rows 16, 19 and 20. -/
theorem test_math_bitwise : (go (regs 0x5A 0 0 0) 0x5E).x.a = 0x5A ∧ (go (flags (regs 0x5A 0 0 0) true false) 0x9E).x.a = 0 ∧
    (go (flags (regs 0x5A 0 0 0) true false) 0x9E).sf = true ∧ (go (regs 0x0F 0 0 0) 0xBE).x.a = 0xF0 := by decide
/-- 2.9 rows 23 and 27: the two values of `FLAGBIT_SIGN`. -/
theorem test_math_flags : (go (param (regs 1 0 0 0) .indexed .fault 0) 0xFE).sf = true ∧
    (go (param (regs 1 0 0 0) .indexed .fault 1) 0xFE).sf = false ∧
    (go (param (regs 1 0 0 0) .indexed .fault 1) 0xFE).zf = true := by decide

/-! ## Witnesses: for each statement with hypotheses, values that meet them, clause by clause -/

theorem witness_decode_cuts_fields :
    (0xF8#8).toNat % 8 = 0 ∧ (0xF9#8).toNat % 8 = 1 ∧ (0xFA#8).toNat % 8 = 2 ∧ (0xFB#8).toNat % 8 = 3 ∧
    (0xFC#8).toNat % 8 = 4 ∧ (0xFD#8).toNat % 8 = 5 ∧ (0xFE#8).toNat % 8 = 6 ∧ (0xFF#8).toNat % 8 = 7 := by decide

theorem witness_reset_clears : State.reset = State.reset ∨ ∃ s : State, State.reset = s.resetAgain := .inl rfl

theorem witness_reset_clears_again : ∃ s t : State, t = s.resetAgain ∧ t.imem ≠ [] :=
  ⟨code (regs 1 2 3 4) [0x28#8], _, rfl, by decide⟩

/-- The shortest image. -/
theorem witness_reset_meets_invariant : ∃ t, loadImage defaultConfig [0x8B#8, 0xCA#8] = .ok t := ⟨_, rfl⟩

/-- Both sides of the image statement: the source's S8 loads; a short, a wrong and an over-long image do
not. -/
theorem witness_image_loads : (∃ t, loadImage defaultConfig [0x8B#8, 0xCA#8, 0x28#8, 0x06#8] = .ok t) ∧
    loadImage defaultConfig [0x8B#8] = .error .tooShort ∧
    loadImage defaultConfig [0xCA#8, 0x8B#8] = .error .invalidHeader := ⟨⟨_, rfl⟩, rfl, rfl⟩

theorem witness_step_runs : (code State.reset [0x28#8]).status = .running ∧
    (code State.reset [0x28#8]).imem[(code State.reset [0x28#8]).pc]? = some (encode (.adi 5#5)) := by decide

theorem witness_placed_word : decodeTableWord 8 0xFF = some (.ior .math 7#3) ∧
    (1 : Nat) ≠ (code State.reset [0#8, 1#8]).pc ∧ 1 < (code State.reset [0#8, 1#8]).imem.length := by decide

theorem witness_arithmetic_flag_laws : ∀ s : State, (∃ t, exec (.adi 31#5) s = .next t) ∧
    (∃ t, exec (.add true .a .h) s = .next t) ∧ ∃ t, exec (.sub true .h .a) s = .next t :=
  fun _ => ⟨⟨_, rfl⟩, ⟨_, rfl⟩, ⟨_, rfl⟩⟩

/-- The largest target. -/
theorem witness_jump_target : (0xFFF#12).toNat = 16 * (regs 0 0 0 0xFF).x.h.toNat + (15#4).toNat := by decide

theorem witness_jne : (regs 0 0 0 0).cfg.dispatch = .indexed ∧ (regs 0 0 0 0).zf = false ∧
    (flags (regs 0 0 0 0) true true).zf = true := by decide

theorem witness_jg : (regs 0 0 0 0).cfg.dispatch = .indexed ∧ (regs 0 0 0 0).sf = false ∧
    (flags (regs 0 0 0 0) true true).sf = true := by decide

theorem witness_jl : (regs 0 0 0 0).cfg.dispatch = .indexed ∧ ((regs 0 0 0 0).sf = false ∧ (regs 0 0 0 0).zf = false) ∧
    ((flags (regs 0 0 0 0) true false).sf = true ∨ (flags (regs 0 0 0 0) true false).zf = true) := by decide

theorem witness_linear_jumps : (param State.reset .linear .fault 0).cfg.dispatch = .linear ∧
    Instr.jl true 15#4 ∈ [Instr.jne true 15#4, .jg true 15#4, .jl true 15#4] := by decide

theorem witness_linear_run : (param (code State.reset [0x03#8]) .linear .fault 0).cfg.dispatch = .linear := by decide

/-- A jump not taken. -/
theorem witness_disciplines_agree : ∀ b, (code (flags State.reset false true) [0x03#8]).fetch = some b →
    ¬JumpTaken (code (flags State.reset false true) [0x03#8]) b := by
  intro b h
  have hb : b = 0x03#8 := (Option.some.inj h).symm
  subst hb
  rintro (⟨-, h⟩ | ⟨h, -⟩ | ⟨h, -⟩)
  · exact absurd h (by decide)
  · exact absurd h (by decide)
  · exact absurd h (by decide)

theorem witness_jump_free : ∀ b ∈ (code State.reset [0x28#8, 0x06#8]).imem, ¬IsJumpByte b := by
  intro b h
  have hb : b = 0x28#8 ∨ b = 0x06#8 := by simpa [code] using h
  rcases hb with rfl | rfl <;> rintro (h | h | h) <;> exact absurd h (by decide)

/-- Every device call has an `IOI` form and an `IOR` form, here in a state whose accumulator points to
`H`; this meets the hypothesis of each statement about calls of one function. -/
theorem witness_calls (d : Device) (f : BitVec 3) :
    Calls (regs 3 1 2 7) d f (.ioi d f) 3 ∧ Calls (regs 3 1 2 7) d f (.ior d f) 7 :=
  ⟨.inl ⟨rfl, rfl⟩, .inr ⟨rfl, .h, rfl, rfl⟩⟩

theorem witness_cpu_zero_halts : Calls (regs 3 1 2 7) .cpu 0#3 (.ioi .cpu 0#3) 3 := (witness_calls _ _).1
theorem witness_no_op_calls : Calls (regs 3 1 2 7) .keyboard 7#3 (.ior .keyboard 7#3) 7 ∧
    (Device.keyboard, 7#3) ∈ [(Device.cpu, 1#3), (.cpu, 7#3), (.keyboard, 2#3), (.keyboard, 3#3), (.keyboard, 4#3),
      (.keyboard, 5#3), (.keyboard, 6#3), (.keyboard, 7#3), (.screen, 6#3), (.screen, 7#3), (.math, 6#3)] ∧
    Calls (regs 3 1 2 7) .keyboard 1#3 (.ioi .keyboard 1#3) 3 ∧ 1#3 ∈ [0#3, 1#3] :=
  ⟨(witness_calls _ _).2, by decide, (witness_calls _ _).1, by decide⟩
theorem witness_clear_calls : Calls (regs 3 1 2 7) .cpu 2#3 (.ioi .cpu 2#3) 3 ∧
    Calls (regs 3 1 2 7) .screen 3#3 (.ior .screen 3#3) 7 ∧ Calls (regs 3 1 2 7) .screen 4#3 (.ioi .screen 4#3) 3 :=
  ⟨(witness_calls _ _).1, (witness_calls _ _).2, (witness_calls _ _).1⟩
theorem witness_cpu_three : Calls (regs 3 1 2 7) .cpu 3#3 (.ior .cpu 3#3) 7 := (witness_calls _ _).2
theorem witness_cpu_four : Memory.wf (regs 3 1 2 7).dmem = true ∧ Calls (regs 3 1 2 7) .cpu 4#3 (.ior .cpu 4#3) 7 :=
  ⟨rfl, (witness_calls _ _).2⟩
theorem witness_cpu_five : Calls (regs 3 1 2 7) .cpu 5#3 (.ior .cpu 5#3) 7 := (witness_calls _ _).2
theorem witness_cpu_six : Memory.wf (regs 3 1 2 7).dmem = true ∧ Calls (regs 3 1 2 7) .cpu 6#3 (.ior .cpu 6#3) 7 ∧
    (0x070#12 : Addr) = ea (regs 3 1 2 7).x.h ((regs 3 1 2 7).read (ea (regs 3 1 2 7).x.h 7)) :=
  ⟨rfl, (witness_calls _ _).2, by decide⟩
theorem witness_keyboard_fatal : Calls (regs 3 1 2 7) .keyboard 0#3 (.ior .keyboard 0#3) 7 ∧
    Calls (regs 3 1 2 7) .keyboard 1#3 (.ior .keyboard 1#3) 7 := ⟨(witness_calls _ _).2, (witness_calls _ _).2⟩
theorem witness_screen_events : Calls (regs 3 1 2 7) .screen 0#3 (.ioi .screen 0#3) 3 ∧
    Calls (regs 3 1 2 7) .screen 1#3 (.ior .screen 1#3) 7 ∧ Calls (regs 3 1 2 7) .screen 2#3 (.ioi .screen 2#3) 3 ∧
    Calls (regs 3 1 2 7) .screen 5#3 (.ior .screen 5#3) 7 :=
  ⟨(witness_calls _ _).1, (witness_calls _ _).2, (witness_calls _ _).1, (witness_calls _ _).2⟩

/-- Selector 3, the largest that is in range, and 4, the smallest that is not, under both policies. -/
theorem witness_math_zero :
    (Calls (regs 3 1 2 7) .math 0#3 (.ioi .math 0#3) 3 ∧ (3#8).toNat ≤ 3 ∧ Reg.h.num = (3#8).toNat % 4) ∧
    (Calls (regs 4 1 2 7) .math 0#3 (.ioi .math 0#3) 4 ∧ 3 < (4#8).toNat ∧ (regs 4 1 2 7).cfg.mathSel = .fault) ∧
    Calls (param (regs 4 1 2 7) .indexed .mask 0) .math 0#3 (.ioi .math 0#3) 4 ∧
      (param (regs 4 1 2 7) .indexed .mask 0).cfg.mathSel = .mask ∧ Reg.a.num = (4#8).toNat % 4 :=
  ⟨⟨.inl ⟨rfl, rfl⟩, by decide, rfl⟩, ⟨.inl ⟨rfl, rfl⟩, by decide, rfl⟩, .inl ⟨rfl, rfl⟩, rfl, rfl⟩

/-- A divisor that is not zero, one that is, and a selector out of range. -/
theorem witness_math_one :
    (Calls (regs 3 1 2 7) .math 1#3 (.ioi .math 1#3) 3 ∧ (3#8).toNat ≤ 3 ∧ Reg.h.num = (3#8).toNat % 4 ∧
      (regs 3 1 2 7).x.get .h ≠ 0) ∧
    (Calls (regs 3 1 2 0) .math 1#3 (.ioi .math 1#3) 3 ∧ (regs 3 1 2 0).x.get .h = 0) ∧
    Calls (regs 4 1 2 7) .math 1#3 (.ioi .math 1#3) 4 ∧ 3 < (4#8).toNat ∧ (regs 4 1 2 7).cfg.mathSel = .fault :=
  ⟨⟨.inl ⟨rfl, rfl⟩, by decide, rfl, by decide⟩, ⟨.inl ⟨rfl, rfl⟩, rfl⟩, .inl ⟨rfl, rfl⟩, by decide, rfl⟩

theorem witness_math_and_or : Calls (regs 3 1 2 7) .math 2#3 (.ioi .math 2#3) 3 ∧
    Calls (regs 3 1 2 7) .math 3#3 (.ior .math 3#3) 7 := ⟨(witness_calls _ _).1, (witness_calls _ _).2⟩
theorem witness_math_xor_not : Calls (regs 3 1 2 7) .math 4#3 (.ioi .math 4#3) 3 ∧
    Calls (regs 3 1 2 7) .math 5#3 (.ior .math 5#3) 7 := ⟨(witness_calls _ _).1, (witness_calls _ _).2⟩

/-- Values 3 and 0 modulo 4, under both settings of `FLAGBIT_SIGN`. -/
theorem witness_math_seven : Calls (regs 3 1 2 7) .math 7#3 (.ioi .math 7#3) 3 ∧ (regs 3 1 2 7).cfg.flagbitSign = 0 ∧
    (3#8).toNat % 4 = 3 ∧ Calls (param (regs 4 1 2 7) .indexed .fault 1) .math 7#3 (.ioi .math 7#3) 4 ∧
    (param (regs 4 1 2 7) .indexed .fault 1).cfg.flagbitSign = 1 ∧ (4#8).toNat % 4 = 0 :=
  ⟨.inl ⟨rfl, rfl⟩, rfl, rfl, .inl ⟨rfl, rfl⟩, rfl, rfl⟩

theorem witness_running_past_end : State.reset.status = .running ∧ State.reset.imem.length ≤ State.reset.pc ∧
    State.reset.imem = [] := by decide

theorem witness_terminal_frozen : (go State.reset 0x06).status ≠ .running := by decide

theorem witness_ending_step : ∃ t, step (code State.reset [0x3E#8]) = .next t ∧ t.status ≠ .running :=
  ⟨_, rfl, by decide⟩

theorem witness_divide_by_zero : (code State.reset [0x3E#8]).status = .running ∧
    ∃ t, step (code State.reset [0x3E#8]) = .next t ∧ t.status = .fatal .divideByZero := ⟨rfl, _, rfl, rfl⟩

theorem witness_keyboard_exactly : (code State.reset [0x2F#8]).status = .running ∧
    ∃ t, step (code State.reset [0x2F#8]) = .next t ∧ t.status = .fatal .keyboardUnimplemented := ⟨rfl, _, rfl, rfl⟩

theorem witness_index_out_of_bounds : (code (regs 4 0 0 0) [0x1E#8]).status = .running ∧
    ∃ t, step (code (regs 4 0 0 0) [0x1E#8]) = .next t ∧ t.status = .fatal .indexOutOfBounds := ⟨rfl, _, rfl, rfl⟩

theorem witness_only_cpu_zero_halts : (code State.reset [0x07#8]).status = .running ∧
    ∃ t, step (code State.reset [0x07#8]) = .next t ∧ t.status = .halted := ⟨rfl, _, rfl, rfl⟩

theorem witness_status_codes : ∃ p q : Status, statusCode p = statusCode q := ⟨.halted, .halted, rfl⟩

/-- A state that meets the invariant and is not reset: terminal, with a data byte listed. -/
theorem witness_step_keeps_invariant : ∃ s t : State,
    Inv s ∧ s.dmem ≠ [] ∧ s.status ≠ .running ∧ step s = .next t :=
  ⟨{ code (mem (regs 7 0 0 0) [(7, 9)]) [0x06#8] with status := .halted }, _,
    ⟨by decide, by decide, .inl rfl⟩, by decide, by decide, rfl⟩

theorem witness_pc_fits : (code State.reset [0x28#8]).imem.length ≤ imemDepth ∧
    (code State.reset [0x28#8]).pc ≤ imemDepth ∧ ∃ t, step (code State.reset [0x28#8]) = .next t :=
  ⟨by decide, by decide, _, rfl⟩

/-- `Math 7` for the registers and the zero flag, `Math 6` for both flags. -/
theorem witness_only_add_sub : (∃ t, exec (.ioi .math 7#3) (regs 3 1 2 7) = .next t) ∧
    (∀ n rs rd, Instr.ioi .math 7#3 ≠ .add n rs rd ∧ Instr.ioi .math 7#3 ≠ .sub n rs rd) ∧
    ∀ v, ¬Calls (regs 3 1 2 7) .math 0#3 (.ioi .math 7#3) v := by
  refine ⟨⟨_, rfl⟩, fun _ _ _ => ⟨nofun, nofun⟩, ?_⟩
  rintro v (⟨h, -⟩ | ⟨h, -⟩)
  · exact absurd (Instr.ioi.inj h).2 (by decide)
  · cases h

theorem witness_flag_writers : (∃ t, exec (.ioi .cpu 3#3) (regs 3 1 2 7) = .next t) ∧
    (∀ m n rs rd, Instr.ioi .cpu 3#3 ≠ .adi m ∧ Instr.ioi .cpu 3#3 ≠ .add n rs rd ∧ Instr.ioi .cpu 3#3 ≠ .sub n rs rd) ∧
    (∀ v, ¬Calls (regs 3 1 2 7) .math 7#3 (.ioi .cpu 3#3) v) ∧
    ∀ v f, f ≠ 6#3 → ¬Calls (regs 3 1 2 7) .math f (.ioi .cpu 3#3) v := by
  refine ⟨⟨_, rfl⟩, fun _ _ _ _ => ⟨nofun, nofun, nofun⟩, ?_, ?_⟩
  · rintro v (⟨h, -⟩ | ⟨h, -⟩) <;> cases h
  · rintro v f - (⟨h, -⟩ | ⟨h, -⟩) <;> cases h

/-- The store `IOR CPU, 4` of R91's example changes a byte. -/
theorem witness_memory_writers : Memory.wf (regs 9 7 0 0).dmem = true ∧
    ∃ t, exec (.ior .cpu 4#3) (regs 9 7 0 0) = .next t ∧ t.read 0x007#12 ≠ (regs 9 7 0 0).read 0x007#12 :=
  ⟨rfl, _, rfl, by decide⟩

theorem witness_imem_never_written : (∃ t, exec (.ioi .cpu 4#3) (regs 3 1 2 7) = .next t) ∧
    ∃ t : State, Host.Core.run Sys2Proof.core 2 (code State.reset [0x28#8, 0x06#8]) = .next t := ⟨⟨_, rfl⟩, ⟨_, rfl⟩⟩

theorem witness_trace_grows : ∃ t, step (code (regs 65 0 0 0) [0x56#8]) = .next t ∧ t.out ≠ [] :=
  ⟨_, rfl, by decide⟩

end Sys2Proof.Tests
end

