-- ==== Sys2Proof/Proofs/Reset.lean ====
section
/-! PROOFS. What a reset leaves of the state (`10_state.md` R24). -/

namespace Sys2Proof.Machine

/-! ## `State.resetAgain` -/

section

variable (s : State)

@[simp] theorem State.resetAgain_sf : s.resetAgain.sf = false := rfl
@[simp] theorem State.resetAgain_zf : s.resetAgain.zf = false := rfl
@[simp] theorem State.resetAgain_pc : s.resetAgain.pc = 0 := rfl
@[simp] theorem State.resetAgain_status : s.resetAgain.status = .running := rfl
@[simp] theorem State.resetAgain_out : s.resetAgain.out = [] := rfl
@[simp] theorem State.resetAgain_imem : s.resetAgain.imem = s.imem := rfl
@[simp] theorem State.resetAgain_cfg : s.resetAgain.cfg = s.cfg := rfl

@[simp] theorem State.get_resetAgain (r : Reg) : s.resetAgain.x.get r = 0 := by
  cases r <;> rfl

/-- A reset lists no cell, so every address reads as the unlisted byte. -/
@[simp] theorem State.read_resetAgain (k : Addr) : s.resetAgain.read k = 0 := rfl

end

/-- The reset state is itself the result of a reset, so a fact about every reset holds of it too. -/
@[simp] theorem State.resetAgain_reset : State.reset.resetAgain = State.reset := rfl

/-- Settles O7: the reset state is its own reset, so the fields are read off `State.resetAgain` once. -/
theorem resetClearsEverything : Obligations.ResetClearsEverything := by
  unfold Obligations.ResetClearsEverything
  refine ⟨fun s => ⟨s.resetAgain_imem, s.resetAgain_cfg⟩, fun t ht => ?_⟩
  obtain ⟨s, rfl⟩ : ∃ s : State, t = s.resetAgain := by
    rcases ht with rfl | hs
    · exact ⟨State.reset, State.resetAgain_reset.symm⟩
    · exact hs
  exact ⟨s.get_resetAgain, s.resetAgain_sf, s.resetAgain_zf, s.resetAgain_pc, s.read_resetAgain,
    s.resetAgain_status, s.resetAgain_out⟩

end Sys2Proof.Machine
end

