-- ==== Sys2Proof/Proofs/Inputs.lean ====
section
/-! PROOFS. The inputs of a run, the instruction memory and the configuration, are never written: not by
a store, not by an instruction, not by any number of steps (`20_memory.md` R39). -/

namespace Sys2Proof.Machine

/-! ## Runs -/

/-- Every instruction has a next state (R60). -/
theorem exec_total (i : Instr) (s : State) : ∃ t, exec i s = .next t := by
  cases i <;> exact ⟨_, rfl⟩

/-- Every step has a next state. -/
theorem step_total (s : State) : ∃ t, step s = .next t := by
  obtain ⟨-, h⟩ | ⟨-, -, h⟩ | ⟨b, -, -, h⟩ := step_cases s
  · exact ⟨s, h⟩
  · exact ⟨s.endEntry, h⟩
  · rw [h]
    exact exec_total (decode b) s

/-- A reflexive and transitive relation that holds across each step holds across each run. -/
theorem run_rel {R : State → State → Prop} (refl : ∀ s, R s s)
    (trans : ∀ {s t u}, R s t → R t u → R s u) (hstep : ∀ {s t}, step s = .next t → R s t)
    {k : Nat} {s t : State} (h : Host.Core.run Sys2Proof.core k s = .next t) : R s t := by
  induction k generalizing s with
  | zero =>
    cases (run_zero s).symm.trans h
    exact refl _
  | succ k ih =>
    obtain ⟨u, hu⟩ := step_total s
    rw [run_succ k hu] at h
    exact trans (hstep hu) (ih h)

/-! ## The inputs -/

/-- The instruction memory and the configuration of `t` are those of `s`. -/
structure SameInputs (s t : State) : Prop where
  imem : t.imem = s.imem
  cfg : t.cfg = s.cfg

theorem SameInputs.refl (s : State) : SameInputs s s := ⟨rfl, rfl⟩

theorem SameInputs.trans {s t u : State} (hst : SameInputs s t) (htu : SameInputs t u) : SameInputs s u :=
  ⟨htu.imem.trans hst.imem, htu.cfg.trans hst.cfg⟩

/-- A device function that returns leaves the inputs: whichever of the named updates it makes, none of
them touches the two fields. -/
theorem device_done_sameInputs {d : Device} {f : BitVec 3} {v : Byte} {s t : State}
    (h : device d f v s = .done t) : SameInputs s t := by
  obtain ⟨hd, -⟩ | ⟨hd, -⟩ | ⟨hd, -⟩ | ⟨hd, -⟩ | hd | ⟨_, hd, -⟩ | ⟨hd, -⟩ | ⟨hd, -⟩ | ⟨_, hd, -⟩ |
    ⟨_, _, _, hd, -⟩ | ⟨_, _, hd, -⟩ | ⟨_, _, hd, -⟩ := device_cases d f v s
  all_goals
    cases hd.symm.trans h
  all_goals
    exact ⟨rfl, rfl⟩

/-- An I/O instruction leaves the inputs, whether it advances, halts or ends fatally. -/
theorem finishIo_sameInputs (d : Device) (f : BitVec 3) (v : Byte) (s : State) :
    SameInputs s (finishIo (device d f v s) s) := by
  obtain ⟨t, hd, hfin⟩ | ⟨-, hfin⟩ | ⟨c, -, hfin⟩ := finishIo_cases (device d f v s) s <;> rw [hfin]
  · exact (device_done_sameInputs hd).trans ⟨t.advance_imem, t.advance_cfg⟩
  · exact ⟨s.haltEntry_imem, s.haltEntry_cfg⟩
  · exact ⟨s.fatalEntry_imem c, s.fatalEntry_cfg c⟩

/-- No instruction writes an input. -/
theorem exec_sameInputs {i : Instr} {s t : State} (h : exec i s = .next t) : SameInputs s t := by
  obtain ⟨r, v, p, z, rfl, -⟩ | ⟨c, w, rfl, -⟩ | ⟨d, f, v, rfl, -⟩ := exec_cases h
  · exact ⟨rfl, rfl⟩
  · rw [State.branch_eq]
    exact ⟨rfl, rfl⟩
  · exact finishIo_sameInputs d f v s

/-- No step writes an input. -/
theorem step_sameInputs {s t : State} (h : step s = .next t) : SameInputs s t := by
  obtain ⟨-, hs⟩ | ⟨-, -, hs⟩ | ⟨b, -, -, hs⟩ := step_cases s <;> rw [hs] at h
  · cases h
    exact SameInputs.refl s
  · cases h
    exact ⟨s.endEntry_imem, s.endEntry_cfg⟩
  · exact exec_sameInputs h

/-- No run writes an input. -/
theorem run_sameInputs {k : Nat} {s t : State} (h : Host.Core.run Sys2Proof.core k s = .next t) :
    SameInputs s t :=
  run_rel SameInputs.refl SameInputs.trans step_sameInputs h

/-- A store goes to the data segment, which fetch does not read. -/
@[simp] theorem State.fetch_write (s : State) (k : Addr) (v : Byte) : (s.write k v).fetch = s.fetch := rfl

/-- Settles O53: each instruction, and so by induction each run, leaves the inputs of the run. -/
theorem instructionMemoryIsNeverWritten : Obligations.InstructionMemoryIsNeverWritten := by
  unfold Obligations.InstructionMemoryIsNeverWritten
  refine ⟨State.fetch_write, fun i s t h => (exec_sameInputs h).imem, fun k s t h => ?_⟩
  obtain ⟨himem, hcfg⟩ := run_sameInputs h
  exact ⟨himem, hcfg⟩

end Sys2Proof.Machine
end

