-- ==== Sys2Proof/Proofs/Fields.lean ====
section
/-! PROOFS. The fields of an instruction byte as numbers, and how a field is built from a number that is
too wide for it (`30_encoding.md` R58). -/

namespace Sys2Proof

/-! ## Fields -/

/-- A field as arithmetic on the byte's value (R6). -/
theorem field_toNat (b : Byte) (lo width : Nat) :
    (field b lo width).toNat = b.toNat / 2 ^ lo % 2 ^ width := by
  rw [field, BitVec.extractLsb'_toNat, Nat.shiftRight_eq_div_pow]

/-- A field that reaches the byte's top bit is what a shift leaves: its own width cuts nothing off. -/
theorem field_top_toNat (b : Byte) {lo width : Nat} (h : lo + width = 8) :
    (field b lo width).toNat = b.toNat / 2 ^ lo := by
  have hlt : b.toNat / 2 ^ lo < 2 ^ width := by
    rw [Nat.div_lt_iff_lt_mul (Nat.two_pow_pos lo), ← Nat.pow_add, Nat.add_comm, h]
    exact b.isLt
  rw [field_toNat, Nat.mod_eq_of_lt hlt]

theorem fn3OfByte_toNat (v : Byte) : (fn3OfByte v).toNat = v.toNat % 8 :=
  BitVec.toNat_setWidth 3 v

theorem off4OfByte_toNat (v : Byte) : (off4OfByte v).toNat = v.toNat % 16 :=
  BitVec.toNat_setWidth 4 v

/-- Settles O4: each of the five instructions takes its field through `BitVec.ofNat`, whose value is the
number modulo the field's size. -/
theorem fieldTypesMaskLowBits : Obligations.FieldTypesMaskLowBits := by
  unfold Obligations.FieldTypesMaskLowBits
  refine ⟨fun v => ⟨fn3OfByte_toNat v, off4OfByte_toNat v⟩, rfl, rfl,
    fun b => ⟨field_top_toNat b rfl, field_top_toNat b rfl⟩, fun p o d f => ⟨?jne, ?jg, ?jl, ?ioi, ?ior⟩⟩
  case jne => exact ⟨_, _, rfl, BitVec.toNat_ofNat o 4⟩
  case jg => exact ⟨_, _, rfl, BitVec.toNat_ofNat o 4⟩
  case jl => exact ⟨_, _, rfl, BitVec.toNat_ofNat o 4⟩
  case ioi => exact ⟨_, _, rfl, BitVec.toNat_ofNat f 3⟩
  case ior => exact ⟨_, _, rfl, BitVec.toNat_ofNat f 3⟩

end Sys2Proof
end

