-- ==== Sys2Proof/Proofs/Status.lean ====
section
/-! PROOFS. The run status an instruction leaves, and so that no byte is an illegal instruction
(`30_encoding.md` R60). -/

namespace Sys2Proof.Machine

/-- A device function that returns leaves the status: no update it makes touches the field. -/
theorem device_done_status {d : Device} {f : BitVec 3} {v : Byte} {s t : State}
    (h : device d f v s = .done t) : t.status = s.status := by
  obtain ⟨hd, -⟩ | ⟨hd, -⟩ | ⟨hd, -⟩ | ⟨hd, -⟩ | hd | ⟨_, hd, -⟩ | ⟨hd, -⟩ | ⟨hd, -⟩ | ⟨_, hd, -⟩ |
    ⟨_, _, _, hd, -⟩ | ⟨_, _, hd, -⟩ | ⟨_, _, hd, -⟩ := device_cases d f v s
  all_goals
    cases hd.symm.trans h
  all_goals
    rfl

/-- The status after an I/O instruction is the one before, the halt, or a fatal cause. -/
theorem finishIo_status (d : Device) (f : BitVec 3) (v : Byte) (s : State) :
    (finishIo (device d f v s) s).status = s.status ∨
    (finishIo (device d f v s) s).status = .halted ∨
    ∃ c, (finishIo (device d f v s) s).status = .fatal c := by
  obtain ⟨t, hd, hfin⟩ | ⟨-, hfin⟩ | ⟨c, -, hfin⟩ := finishIo_cases (device d f v s) s <;> rw [hfin]
  · exact .inl (t.advance_status.trans (device_done_status hd))
  · exact .inr (.inl s.haltEntry_status)
  · exact .inr (.inr ⟨c, s.fatalEntry_status c⟩)

/-- Only an I/O instruction can end the run, and only by the halt or by a fatal cause. -/
theorem exec_status {i : Instr} {s t : State} (h : exec i s = .next t) :
    t.status = s.status ∨ t.status = .halted ∨ ∃ c, t.status = .fatal c := by
  obtain ⟨r, v, p, z, rfl, -⟩ | ⟨c, w, rfl, -⟩ | ⟨d, f, v, rfl, -⟩ := exec_cases h
  · exact .inl rfl
  · rw [State.branch_eq]
    exact .inl (s.goto_status _)
  · exact finishIo_status d f v s

/-- Settles O3: every instruction has a next state, and of the fatal causes there are three. -/
theorem everyByteHasItsMeaning : Obligations.EveryByteHasItsMeaning := by
  unfold Obligations.EveryByteHasItsMeaning
  intro b rest s
  obtain ⟨t, ht⟩ := exec_total (decode b) s
  refine ⟨rfl, t, ht, ?_⟩
  obtain hsame | hhalt | ⟨c, hc⟩ := exec_status ht
  · exact .inl hsame
  · exact .inr (.inl hhalt)
  · cases c with
    | divideByZero => exact .inr (.inr (.inl hc))
    | keyboardUnimplemented => exact .inr (.inr (.inr (.inl hc)))
    | indexOutOfBounds => exact .inr (.inr (.inr (.inr hc)))

end Sys2Proof.Machine
end

