-- ==== Sys2Proof/Proofs/NoOpCalls.lean ====
section
/-! PROOFS. What an I/O instruction does, by either of its two forms, and the device functions that do
nothing (`30_encoding.md` R61). -/

namespace Sys2Proof.Machine

/-! ## Device calls -/

/-- A call of a device function, by `IOI` or by `IOR`, ends as the function's result says. -/
theorem exec_of_calls {s : State} {d : Device} {f : BitVec 3} {i : Instr} {v : Byte}
    (h : Calls s d f i v) : exec i s = .next (finishIo (device d f v s) s) := by
  obtain ⟨rfl, rfl⟩ | ⟨rfl, r, hr, rfl⟩ := h
  · exact exec_ioi d f s
  · rw [exec_ior, regOfByte_eq hr]

/-- A call whose function returns the state `t` ends in `t` with `pc` advanced. -/
theorem exec_of_calls_done {s t : State} {d : Device} {f : BitVec 3} {i : Instr} {v : Byte}
    (h : Calls s d f i v) (hd : device d f v s = .done t) : exec i s = .next t.advance := by
  rw [exec_of_calls h, hd, finishIo]

/-- A call whose function raises `c` enters the fatal outcome (R149). -/
theorem exec_of_calls_raise {s : State} {d : Device} {f : BitVec 3} {i : Instr} {v : Byte} {c : Cause}
    (h : Calls s d f i v) (hd : device d f v s = .raise c) : exec i s = .next (s.fatalEntry c) := by
  rw [exec_of_calls h, hd, finishIo]

/-! ## The functions of R61 -/

/-- The device functions that R61 lists as no-ops. -/
def noOpFunctions : List (Device × BitVec 3) :=
  [(.cpu, 1#3), (.cpu, 7#3), (.keyboard, 2#3), (.keyboard, 3#3), (.keyboard, 4#3), (.keyboard, 5#3),
    (.keyboard, 6#3), (.keyboard, 7#3), (.screen, 6#3), (.screen, 7#3), (.math, 6#3)]

/-- A no-op function returns the state it was called in: the rows of the dispatch table (R100). -/
theorem device_of_mem_noOpFunctions {d : Device} {f : BitVec 3} (h : (d, f) ∈ noOpFunctions) (v : Byte)
    (s : State) : device d f v s = .done s := by
  have rows : ∀ c ∈ noOpFunctions, device c.1 c.2 v s = .done s := by
    simp only [noOpFunctions, List.forall_mem_cons, List.not_mem_nil, false_implies, implies_true, and_true,
      device_cpu1, device_cpu7, device_keyboard2, device_keyboard3, device_keyboard4, device_keyboard5,
      device_keyboard6, device_keyboard7, device_screen6, device_screen7, device_math6]
  exact rows (d, f) h

/-- The two Keyboard functions that are not implemented are fatal (R110, R111). -/
theorem device_keyboard_fatal {f : BitVec 3} (h : f ∈ [0#3, 1#3]) (v : Byte) (s : State) :
    device .keyboard f v s = .raise .keyboardUnimplemented := by
  obtain rfl | rfl : f = 0#3 ∨ f = 1#3 := by simpa using h
  · exact device_keyboard0 v s
  · exact device_keyboard1 v s

/-- The tags of the two forms are 6 and 7 (R52) and their other bits agree. -/
theorem encode_ior_eq_encode_ioi_add_one (d : Device) (f : BitVec 3) :
    encode (.ior d f) = encode (.ioi d f) + 1 := by
  revert f
  cases d <;> decide

/-- Settles O27: the calls by the dispatch table, the listed bytes by evaluation. -/
theorem noOpCallsOnlyAdvance : Obligations.NoOpCallsOnlyAdvance := by
  unfold Obligations.NoOpCallsOnlyAdvance
  refine ⟨fun s i v d f hcall hmem => ?noOp, fun s i v f hcall hmem => ?fatal, ?bytes,
    encode_ior_eq_encode_ioi_add_one⟩
  case noOp => exact exec_of_calls_done hcall (device_of_mem_noOpFunctions hmem v s)
  case fatal =>
    exact ⟨s.fatalEntry .keyboardUnimplemented, exec_of_calls_raise hcall (device_keyboard_fatal hmem v s),
      s.fatalEntry_status .keyboardUnimplemented⟩
  case bytes => decide

end Sys2Proof.Machine
end

