-- ==== Sys2Proof/Proofs/Arithmetic.lean ====
section
/-! PROOFS. The three arithmetic instructions `ADI`, `ADD` and `SUB`: result, flags, frame and bytes
(`40_arithmetic.md` R71 to R73). -/

namespace Sys2Proof

/-! ## The bytes of formats I and R -/

/-- A field placed above a byte that lies wholly below it: the two parts add up, since they share no
bit. -/
theorem field_or_toNat {w k : Nat} (f : BitVec w) {b : Byte} (hwidth : w + k ≤ 8) (hb : b.toNat < 2 ^ k) :
    (f.setWidth 8 <<< k ||| b).toNat = 2 ^ k * f.toNat + b.toNat := by
  have hfield : 2 ^ k * f.toNat < 2 ^ 8 := calc
    2 ^ k * f.toNat < 2 ^ k * 2 ^ w := Nat.mul_lt_mul_of_pos_left f.isLt (Nat.two_pow_pos k)
    _ = 2 ^ (w + k) := by rw [← Nat.pow_add, Nat.add_comm]
    _ ≤ 2 ^ 8 := Nat.pow_le_pow_right Nat.two_pos hwidth
  rw [BitVec.toNat_or, BitVec.toNat_shiftLeft, BitVec.toNat_setWidth_of_le (by omega), Nat.shiftLeft_eq,
    Nat.mul_comm, Nat.mod_eq_of_lt hfield, Nat.two_pow_add_eq_or_of_lt hb]

/-- The byte of format I (R53): the immediate from bit 3 up, the tag 0 below it. -/
theorem encode_adi_toNat (m : BitVec 5) : (encode (.adi m)).toNat = 8 * m.toNat :=
  field_or_toNat m (b := 0#8) (by decide) (by decide)

theorem regId_toNat (r : Reg) : (regId r).toNat = r.num := by
  rw [regId, BitVec.toNat_ofNat, Nat.mod_eq_of_lt r.num_lt]

/-- The byte of format R (R54), from the tag up: each of the three fields lies above what stands
already. -/
theorem encodeR_toNat {op : Byte} (hop : op.toNat < 8) (n : Bool) (rs rd : Reg) :
    (encode.encodeR op n rs rd).toNat = op.toNat + 8 * n.toNat + 16 * rs.num + 64 * rd.num := by
  have hn := n.toNat_lt
  have hrs := rs.num_lt
  have hind := field_or_toNat (BitVec.ofBool n) (k := 3) (by decide) hop
  rw [BitVec.toNat_ofBool] at hind
  have hsrc := field_or_toNat (regId rs) (k := 4) (by decide) (hind.trans_lt (by omega))
  rw [regId_toNat] at hsrc
  have hdst := field_or_toNat (regId rd) (k := 6) (by decide) (hsrc.trans_lt (by omega))
  rw [regId_toNat] at hdst
  rw [encode.encodeR, BitVec.or_assoc, BitVec.or_assoc, hdst]
  omega

theorem encode_add_toNat (n : Bool) (rs rd : Reg) :
    (encode (.add n rs rd)).toNat = 1 + 8 * n.toNat + 16 * rs.num + 64 * rd.num :=
  encodeR_toNat (op := 1#8) (by decide) n rs rd

theorem encode_sub_toNat (n : Bool) (rs rd : Reg) :
    (encode (.sub n rs rd)).toNat = 2 + 8 * n.toNat + 16 * rs.num + 64 * rd.num :=
  encodeR_toNat (op := 2#8) (by decide) n rs rd

end Sys2Proof

namespace Sys2Proof.Machine

/-! ## Results and flags -/

theorem immByte_toNat (m : BitVec 5) : (immByte m).toNat = m.toNat :=
  BitVec.toNat_setWidth_of_le (by decide)

@[simp] theorem isZero_iff (r : Byte) : isZero r = true ↔ r = 0 := beq_iff_eq

@[simp] theorem borrow_iff (d s : Byte) : borrow d s = true ↔ d.toNat < s.toNat := decide_eq_true_iff

/-- A difference that wraps is congruent to the exact one (R73). -/
theorem byte_sub_toNat (d s : Byte) : ((d - s).toNat : Int) = (d.toNat - s.toNat : Int) % 256 := by
  rw [BitVec.toNat_sub]
  omega

/-- A difference of zero has equal operands, so it did not borrow (R73). -/
theorem not_borrow_and_isZero_sub (d s : Byte) : ¬(borrow d s = true ∧ isZero (d - s) = true) := by
  rintro ⟨hborrow, hzero⟩
  rw [borrow_iff] at hborrow
  rw [isZero_iff, sub_eq_zero] at hzero
  rw [hzero] at hborrow
  exact lt_irrefl _ hborrow

/-! ## The write-back of an arithmetic instruction -/

/-- What all three instructions do with their result `v`: it goes to the register `r`, both flags are
written, and the run falls through (R71 to R73). -/
def State.writeBack (s : State) (r : Reg) (v : Byte) (sf zf : Bool) : State :=
  ((s.setReg r v).setFlags sf zf).advance

section

variable {s : State} {r : Reg} {v : Byte} {sf zf : Bool}

@[simp] theorem State.writeBack_x : (s.writeBack r v sf zf).x = s.x.set r v := rfl
@[simp] theorem State.writeBack_sf : (s.writeBack r v sf zf).sf = sf := rfl
@[simp] theorem State.writeBack_zf : (s.writeBack r v sf zf).zf = zf := rfl
@[simp] theorem State.writeBack_pc : (s.writeBack r v sf zf).pc = s.pc + 1 := rfl

theorem sameRegsBut_writeBack : SameRegsBut r s (s.writeBack r v sf zf) :=
  fun _ hq => s.x.get_set_ne v hq

theorem sameMemory_writeBack : SameMemory s (s.writeBack r v sf zf) :=
  fun _ => rfl

theorem sameRun_writeBack : SameRun s (s.writeBack r v sf zf) :=
  ⟨rfl, rfl, rfl, rfl⟩

/-- The zero flag law (R74): a zero flag computed from the value written tells whether the register
written reads 0 afterwards. -/
theorem State.writeBack_zf_iff :
    (s.writeBack r v sf (isZero v)).zf = true ↔ (s.writeBack r v sf (isZero v)).x.get r = 0 := by
  rw [State.writeBack_zf, State.writeBack_x, Regs.get_set_same, isZero_iff]

end

theorem exec_adi_writeBack (m : BitVec 5) (s : State) :
    exec (.adi m) s =
      .next (s.writeBack .a (s.x.a + immByte m) false (isZero (s.x.a + immByte m))) :=
  exec_adi m s

theorem exec_add_writeBack (n : Bool) (rs rd : Reg) (s : State) :
    exec (.add n rs rd) s =
      .next (s.writeBack (resolve s.x rd n) (s.x.get (resolve s.x rd n) + s.x.get (resolve s.x rs n)) false
        (isZero (s.x.get (resolve s.x rd n) + s.x.get (resolve s.x rs n)))) :=
  exec_add n rs rd s

theorem exec_sub_writeBack (n : Bool) (rs rd : Reg) (s : State) :
    exec (.sub n rs rd) s =
      .next (s.writeBack (resolve s.x rd n) (s.x.get (resolve s.x rd n) - s.x.get (resolve s.x rs n))
        (borrow (s.x.get (resolve s.x rd n)) (s.x.get (resolve s.x rs n)))
        (isZero (s.x.get (resolve s.x rd n) - s.x.get (resolve s.x rs n)))) :=
  exec_sub n rs rd s

/-! ## The three instructions -/

/-- Settles O13: the write-back of the sum to `A`, whose operand is the zero-extended immediate. -/
theorem adiAddsImmediate : Obligations.AdiAddsImmediate := by
  unfold Obligations.AdiAddsImmediate
  intro m s
  refine ⟨encode_adi_toNat m, _, exec_adi_writeBack m s, ?result, State.writeBack_sf,
    State.writeBack_zf_iff, State.writeBack_pc, sameRegsBut_writeBack, sameMemory_writeBack,
    sameRun_writeBack⟩
  case result => rw [State.writeBack_x, Regs.set_a_a, BitVec.toNat_add, immByte_toNat]

/-- Settles O14: the write-back of the sum to the resolved destination, which may be the source. -/
theorem addAddsSourceToDestination : Obligations.AddAddsSourceToDestination := by
  unfold Obligations.AddAddsSourceToDestination
  intro n rs rd s
  refine ⟨encode_add_toNat n rs rd, _, exec_add_writeBack n rs rd s, ?result, State.writeBack_sf,
    State.writeBack_zf_iff, State.writeBack_pc, sameRegsBut_writeBack, sameMemory_writeBack,
    sameRun_writeBack⟩
  case result => rw [State.writeBack_x, Regs.get_set_same, BitVec.toNat_add]

/-- Settles O15: the write-back of the difference and of the borrow of the old values to the resolved
destination, which may be the source. -/
theorem subSubtractsSourceFromDestination : Obligations.SubSubtractsSourceFromDestination := by
  unfold Obligations.SubSubtractsSourceFromDestination
  intro n rs rd s
  refine ⟨encode_sub_toNat n rs rd, _, exec_sub_writeBack n rs rd s, ?result, borrow_iff _ _,
    State.writeBack_zf_iff, not_borrow_and_isZero_sub _ _, State.writeBack_pc, sameRegsBut_writeBack,
    sameMemory_writeBack, sameRun_writeBack⟩
  case result => rw [State.writeBack_x, Regs.get_set_same, byte_sub_toNat]

end Sys2Proof.Machine
end

