-- ==== Sys2Proof/Proofs/Jumps.lean ====
section
/-! PROOFS. The jumps under indexed dispatch: condition, target, fall-through and bytes
(`41_control_transfer.md` R82, R84). -/

namespace Sys2Proof

/-! ## The bytes of format J -/

/-- The byte of format J (R55), from the tag up: the pointer flag and then the operand lie above what
stands already. -/
theorem encodeJ_toNat {op : Byte} (hop : op.toNat < 8) (p : Bool) (o : BitVec 4) :
    (encode.encodeJ op p o).toNat = op.toNat + 8 * p.toNat + 16 * o.toNat := by
  have hp := p.toNat_lt
  have hptr := field_or_toNat (BitVec.ofBool p) (k := 3) (by decide) hop
  rw [BitVec.toNat_ofBool] at hptr
  have hoff := field_or_toNat o (k := 4) (by decide) (hptr.trans_lt (by omega))
  rw [encode.encodeJ, BitVec.or_assoc, hoff]
  omega

theorem encode_jne_toNat (p : Bool) (o : BitVec 4) :
    (encode (.jne p o)).toNat = 3 + 8 * p.toNat + 16 * o.toNat :=
  encodeJ_toNat (op := 3#8) (by decide) p o

theorem encode_jl_toNat (p : Bool) (o : BitVec 4) :
    (encode (.jl p o)).toNat = 5 + 8 * p.toNat + 16 * o.toNat :=
  encodeJ_toNat (op := 5#8) (by decide) p o

end Sys2Proof

namespace Sys2Proof.Machine

/-! ## Conditions -/

@[simp] theorem condJne_iff (s : State) : condJne s = true ↔ s.zf = false := by
  rw [condJne, Bool.not_eq_true']

@[simp] theorem condJl_iff (s : State) : condJl s = true ↔ s.sf = false ∧ s.zf = false := by
  rw [condJl, Bool.and_eq_true, Bool.not_eq_true', Bool.not_eq_true']

/-! ## Taken and not taken -/

/-- Under indexed dispatch a jump whose condition holds goes to its target (R80). -/
theorem State.branch_of_cond {s : State} {c : Bool} (t : Addr) (hdispatch : s.cfg.dispatch = .indexed)
    (hc : c = true) : s.branch c t = s.goto t.toNat := by
  rw [State.branch_eq, if_pos ⟨hdispatch, hc⟩]

/-- A jump whose condition fails falls through (R80), under either discipline. -/
theorem State.branch_of_not_cond {s : State} {c : Bool} (t : Addr) (hc : ¬c = true) :
    s.branch c t = s.goto (s.pc + 1) := by
  rw [State.branch_eq, if_neg fun h => hc h.2]

/-! ## The two instructions -/

/-- Settles O19: the jump is taken exactly when the zero flag is clear. -/
theorem jneJumpsIfZeroClear : Obligations.JneJumpsIfZeroClear := by
  unfold Obligations.JneJumpsIfZeroClear
  intro p o s hdispatch
  refine ⟨encode_jne_toNat p o, fun hclear => ?taken, fun hset => ?fallThrough⟩
  case taken =>
    rw [exec_jne, State.branch_of_cond _ hdispatch ((condJne_iff s).mpr hclear), State.goto]
  case fallThrough =>
    have hfails : ¬condJne s = true := by simp [hset]
    rw [exec_jne, State.branch_of_not_cond _ hfails, State.goto]

/-- Settles O21: the jump is taken exactly when both flags are clear. -/
theorem jlJumpsIfBothClear : Obligations.JlJumpsIfBothClear := by
  unfold Obligations.JlJumpsIfBothClear
  intro p o s hdispatch
  refine ⟨encode_jl_toNat p o, fun hclear => ?taken, fun hset => ?fallThrough⟩
  case taken =>
    rw [exec_jl, State.branch_of_cond _ hdispatch ((condJl_iff s).mpr hclear), State.goto]
  case fallThrough =>
    have hfails : ¬condJl s = true := by
      rw [condJl_iff]
      rintro ⟨hsf, hzf⟩
      simp [hsf, hzf] at hset
    rw [exec_jl, State.branch_of_not_cond _ hfails, State.goto]

end Sys2Proof.Machine
end

