-- ==== Sys2Proof/Proofs/DeviceCalls.lean ====
section
/-! PROOFS. What a call of a device function leaves, one rule for each kind of update a function makes,
and the Cpu, Keyboard, Screen and Math functions that need no more than these (`43_devices.md` R103
to R126). -/

namespace Sys2Proof.Machine

/-! ## The data segment after a store -/

theorem State.read_write_same {s : State} (k : Addr) (b : Byte) (hwf : Memory.wf s.dmem = true) :
    (s.write k b).read k = b := by
  rw [State.read_write s k k b hwf, if_pos rfl]

theorem State.read_write_ne {s : State} {k j : Addr} (b : Byte) (hwf : Memory.wf s.dmem = true)
    (hne : j ≠ k) : (s.write k b).read j = s.read j := by
  rw [State.read_write s k j b hwf, if_neg hne]

/-! ## The next state of a call, by the update its function makes -/

section

variable {s : State} {d : Device} {f : BitVec 3} {i : Instr} {v b : Byte}

/-- A function that sets the accumulator writes no flag (R17). -/
theorem exec_of_calls_setAccumulator (h : Calls s d f i v)
    (hd : device d f v s = .done (s.setReg .a b)) :
    exec i s = .next { s with x := { s.x with a := b }, pc := s.pc + 1 } :=
  exec_of_calls_done h hd

/-- A function that sets the accumulator and the zero flag from it leaves the sign flag (R123 to
R126). -/
theorem exec_of_calls_setAccumulatorZero (h : Calls s d f i v)
    (hd : device d f v s = setAccumulatorZero s b) :
    exec i s = .next { s with x := { s.x with a := b }, zf := isZero b, pc := s.pc + 1 } :=
  exec_of_calls_done h hd

theorem exec_of_calls_emit {e : Event} (h : Calls s d f i v) (hd : device d f v s = .done (s.emit e)) :
    exec i s = .next { s with out := s.out ++ [e], pc := s.pc + 1 } :=
  exec_of_calls_done h hd

/-- A function that stores the byte `b` at `k` changes that byte of a canonical data segment and no
other. -/
theorem exec_of_calls_write {k : Addr} (h : Calls s d f i v) (hd : device d f v s = .done (s.write k b))
    (hwf : Memory.wf s.dmem = true) :
    ∃ t, exec i s = .next t ∧ t.read k = b ∧ (∀ j, j ≠ k → t.read j = s.read j) ∧
      t = { s with dmem := t.dmem, pc := s.pc + 1 } := by
  refine ⟨(s.write k b).advance, exec_of_calls_done h hd, ?written, fun j hne => ?others, rfl⟩
  case written => rw [State.read_advance, State.read_write_same k b hwf]
  case others => rw [State.read_advance, State.read_write_ne b hwf hne]

end

/-! ## Clearing the accumulator -/

/-- Settles O28: the three functions have one meaning in the dispatch table. -/
theorem clearCallsZeroAccumulator : Obligations.ClearCallsZeroAccumulator := by
  unfold Obligations.ClearCallsZeroAccumulator
  refine ⟨fun s i v hcalls => ?_, by decide⟩
  obtain h | h | h := hcalls
  · exact exec_of_calls_setAccumulator h (device_cpu2 v s)
  · exact exec_of_calls_setAccumulator h (device_screen3 v s)
  · exact exec_of_calls_setAccumulator h (device_screen4 v s)

/-! ## Cpu -/

/-- Settles O29: the accumulator is set to the byte at the composed address. -/
theorem cpuThreeLoads : Obligations.CpuThreeLoads := by
  unfold Obligations.CpuThreeLoads
  exact ⟨fun s i v h => exec_of_calls_setAccumulator h (device_cpu3 v s), by decide⟩

/-- Settles O30: a store at the composed address. -/
theorem cpuFourStores : Obligations.CpuFourStores := by
  unfold Obligations.CpuFourStores
  exact ⟨fun s i v hwf h => exec_of_calls_write h (device_cpu4 v s) hwf, by decide⟩

/-! ## Keyboard -/

/-- Settles O33: both functions raise, and the fatal entry changes the status alone (R149). -/
theorem keyboardZeroOneAreFatal : Obligations.KeyboardZeroOneAreFatal := by
  unfold Obligations.KeyboardZeroOneAreFatal
  refine ⟨fun s i v hcalls => ?_, by decide⟩
  obtain h | h := hcalls
  · exact exec_of_calls_raise h (device_keyboard0 v s)
  · exact exec_of_calls_raise h (device_keyboard1 v s)

/-! ## Screen -/

/-- Settles O34: each of the four functions emits its event. -/
theorem screenCallsEmitEvents : Obligations.ScreenCallsEmitEvents := by
  unfold Obligations.ScreenCallsEmitEvents
  refine ⟨fun s i v => ⟨fun h => ?row, fun h => ?col, fun h => ?char, fun h => ?clear⟩, by decide⟩
  case row => exact exec_of_calls_emit h (device_screen0 v s)
  case col => exact exec_of_calls_emit h (device_screen1 v s)
  case char => exact exec_of_calls_emit h (device_screen2 v s)
  case clear => exact exec_of_calls_emit h (device_screen5 v s)

/-! ## Math -/

/-- Math 2 writes the accumulator's own value back, since `a & a = a` (R123). -/
theorem device_math2_self (v : Byte) (s : State) :
    device .math 2#3 v s = setAccumulatorZero s s.x.a := by
  rw [device_math2, BitVec.and_self]

/-- Math 3 writes the accumulator's own value back, since `a | a = a` (R124). -/
theorem device_math3_self (v : Byte) (s : State) :
    device .math 3#3 v s = setAccumulatorZero s s.x.a := by
  rw [device_math3, BitVec.or_self]

/-- Math 4 writes zero, since `a ^ a = 0` (R125). -/
theorem device_math4_zero (v : Byte) (s : State) :
    device .math 4#3 v s = setAccumulatorZero s 0 := by
  rw [device_math4, BitVec.xor_self]
  rfl

/-- The complement of a byte is what it lacks to 255 (R126). -/
theorem byte_not_toNat (a : Byte) : (~~~a).toNat = 255 - a.toNat := BitVec.toNat_not

/-- A complement is zero exactly when every bit was set (R126). -/
theorem isZero_not_iff (a : Byte) : isZero (~~~a) = true ↔ a = 0xFF#8 := by
  rw [isZero_iff, BitVec.not_eq_comm]
  rfl

/-- Settles O37: the accumulator is set to the value it has, and the zero flag from it. -/
theorem mathSelfAndOrKeepAccumulator : Obligations.MathSelfAndOrKeepAccumulator := by
  unfold Obligations.MathSelfAndOrKeepAccumulator
  refine ⟨fun s i v hcalls => ?_, by decide⟩
  obtain h | h := hcalls
  · exact exec_of_calls_setAccumulatorZero h (device_math2_self v s)
  · exact exec_of_calls_setAccumulatorZero h (device_math3_self v s)

/-- Settles O38: the accumulator is set to zero by the one function, to its complement by the other, and
the zero flag from it. -/
theorem mathXorClearsNotComplements : Obligations.MathXorClearsNotComplements := by
  unfold Obligations.MathXorClearsNotComplements
  refine ⟨fun s i v => ⟨fun h => ?xor, fun h => ?not⟩, by decide⟩
  case xor => exact exec_of_calls_setAccumulatorZero h (device_math4_zero v s)
  case not =>
    exact ⟨_, exec_of_calls_setAccumulatorZero h (device_math5 v s), byte_not_toNat s.x.a,
      isZero_not_iff s.x.a, rfl⟩

end Sys2Proof.Machine
end

