-- ==== Sys2Proof/Proofs/KeyboardFault.lean ====
section
/-! PROOFS. Which instructions raise a fatal cause, which bytes call a given device function, and so which
bytes raise `KeyboardUnimplemented` (`60_exceptions.md` R142). -/

namespace Sys2Proof.Machine

/-! ## The bytes of a device call -/

/-- The number of a byte that decodes to `IOI` (R56): tag 6, then the device, then the function. -/
theorem toNat_of_decode_ioi {b : Byte} {d : Device} {f : BitVec 3} (h : decode b = .ioi d f) :
    b.toNat = 32 * f.toNat + 8 * d.num + 6 := by
  unfold decode at h
  split at h <;> cases h
  next htag =>
    rw [field_toNat] at htag
    rw [field_top_toNat b rfl, deviceOfId_num, field_toNat]
    omega

/-- The number of a byte that decodes to `IOR` (R56): tag 7, which is what the six other tags leave. -/
theorem toNat_of_decode_ior {b : Byte} {d : Device} {f : BitVec 3} (h : decode b = .ior d f) :
    b.toNat = 32 * f.toNat + 8 * d.num + 7 := by
  unfold decode at h
  split at h <;> cases h
  next h0 h1 h2 h3 h4 h5 h6 =>
    simp only [field_toNat, imp_false] at h0 h1 h2 h3 h4 h5 h6
    rw [field_top_toNat b rfl, deviceOfId_num, field_toNat]
    omega

/-- The bytes that call a Keyboard function that is not implemented are the four of R142. -/
theorem decode_keyboard_unimplemented_iff (b : Byte) :
    (∃ f ∈ [0#3, 1#3], decode b = .ioi .keyboard f ∨ decode b = .ior .keyboard f) ↔
      b ∈ [0x0E#8, 0x0F#8, 0x2E#8, 0x2F#8] := by
  simp only [List.mem_cons, List.not_mem_nil, or_false]
  constructor
  · rintro ⟨f, rfl | rfl, h | h⟩
    · exact .inl (BitVec.eq_of_toNat_eq (toNat_of_decode_ioi h))
    · exact .inr (.inl (BitVec.eq_of_toNat_eq (toNat_of_decode_ior h)))
    · exact .inr (.inr (.inl (BitVec.eq_of_toNat_eq (toNat_of_decode_ioi h))))
    · exact .inr (.inr (.inr (BitVec.eq_of_toNat_eq (toNat_of_decode_ior h))))
  · rintro (rfl | rfl | rfl | rfl)
    · exact ⟨0#3, .inl rfl, .inl rfl⟩
    · exact ⟨0#3, .inl rfl, .inr rfl⟩
    · exact ⟨1#3, .inr rfl, .inl rfl⟩
    · exact ⟨1#3, .inr rfl, .inr rfl⟩

/-! ## Which instructions are fatal -/

/-- An I/O instruction always makes its call: `IOI` passes the accumulator, `IOR` the register it
points to. -/
theorem exists_calls_iff {s : State} {d : Device} {f : BitVec 3} {i : Instr} :
    (∃ v, Calls s d f i v) ↔ i = .ioi d f ∨ i = .ior d f := by
  constructor
  · rintro ⟨v, ⟨h, -⟩ | ⟨h, -⟩⟩
    · exact .inl h
    · exact .inr h
  · rintro (h | h)
    · exact ⟨s.x.a, .inl ⟨h, rfl⟩⟩
    · exact ⟨_, .inr ⟨h, regOfByte s.x.a, regOfByte_num s.x.a, rfl⟩⟩

/-- An instruction of a running machine is fatal exactly when it calls a device function that raises the
cause. -/
theorem exec_status_fatal_iff {i : Instr} {s t : State} {c : Cause} (hrun : s.status = .running)
    (h : exec i s = .next t) :
    t.status = .fatal c ↔ ∃ d f v, Calls s d f i v ∧ device d f v s = .raise c := by
  constructor
  · intro hfatal
    have hne : t.status ≠ s.status := by rw [hfatal, hrun]; nofun
    obtain ⟨r, v, p, z, rfl, -⟩ | ⟨b, w, rfl, -⟩ | ⟨d, f, v, rfl, hcall⟩ := exec_cases h
    · exact absurd rfl hne
    · rw [State.branch_eq] at hne
      exact absurd rfl hne
    · obtain ⟨u, hd, hfin⟩ | ⟨-, hfin⟩ | ⟨c', hd, hfin⟩ := finishIo_cases (device d f v s) s <;>
        rw [hfin] at hfatal hne
      · exact absurd (device_done_status hd) hne
      · cases hfatal
      · cases hfatal
        refine ⟨d, f, v, ?_, hd⟩
        obtain hioi | ⟨hior, hv⟩ := hcall
        · exact .inl hioi
        · exact .inr ⟨hior, regOfByte s.x.a, regOfByte_num s.x.a, hv⟩
  · rintro ⟨d, f, v, hcall, hd⟩
    cases h.symm.trans (exec_of_calls_raise hcall hd)
    exact s.fatalEntry_status c

/-- Keyboard 0 and 1 raise `KeyboardUnimplemented` (R110, R111), and no other device function does. -/
theorem device_raise_keyboardUnimplemented_iff {d : Device} {f : BitVec 3} {v : Byte} {s : State} :
    device d f v s = .raise .keyboardUnimplemented ↔ d = .keyboard ∧ f ∈ [0#3, 1#3] := by
  constructor
  · intro h
    obtain ⟨hd, -⟩ | ⟨-, hkeyboard, hf⟩ | ⟨hd, -⟩ | ⟨hd, -⟩ | hd | ⟨_, hd, -⟩ | ⟨hd, -⟩ | ⟨hd, -⟩ |
      ⟨_, hd, -⟩ | ⟨_, _, _, hd, -⟩ | ⟨_, _, hd, -⟩ | ⟨_, _, hd, -⟩ := device_cases d f v s
    case inr.inl => exact ⟨hkeyboard, by simpa using hf⟩
    all_goals cases hd.symm.trans h
  · rintro ⟨rfl, hf⟩
    exact device_keyboard_fatal hf v s

/-- An instruction of a running machine raises `KeyboardUnimplemented` exactly when it is Keyboard 0 or 1,
whatever value it passes. -/
theorem exec_keyboardUnimplemented_iff {i : Instr} {s t : State} (hrun : s.status = .running)
    (h : exec i s = .next t) :
    t.status = .fatal .keyboardUnimplemented ↔
      ∃ f ∈ [0#3, 1#3], i = .ioi .keyboard f ∨ i = .ior .keyboard f := by
  rw [exec_status_fatal_iff hrun h]
  constructor
  · rintro ⟨d, f, v, hcall, hd⟩
    obtain ⟨rfl, hf⟩ := device_raise_keyboardUnimplemented_iff.mp hd
    exact ⟨f, hf, exists_calls_iff.mp ⟨v, hcall⟩⟩
  · rintro ⟨f, hf, hi⟩
    obtain ⟨v, hcall⟩ := exists_calls_iff.mpr hi
    exact ⟨.keyboard, f, v, hcall, device_keyboard_fatal hf v s⟩

/-- Settles O44: the step runs the byte at `pc`, if there is one, and that byte is fatal in this way
exactly when it decodes to Keyboard 0 or 1. -/
theorem keyboardUnimplementedExactly : Obligations.KeyboardUnimplementedExactly := by
  unfold Obligations.KeyboardUnimplementedExactly
  refine ⟨rfl, fun s t hrun hstep => ?_⟩
  obtain ⟨hend, -⟩ | ⟨-, hfetch, hs⟩ | ⟨b, -, hfetch, hs⟩ := step_cases s
  case inl => exact absurd hrun hend
  case inr.inl =>
    cases hs.symm.trans hstep
    simp [hfetch]
  case inr.inr =>
    rw [exec_keyboardUnimplemented_iff hrun (hs.symm.trans hstep), decode_keyboard_unimplemented_iff, hfetch]
    simp only [Option.some_inj, exists_eq_right']

end Sys2Proof.Machine
end

