-- ==== Sys2Proof/Proofs/DecodeEncode.lean ====
section
/-! PROOFS. Decode and encode as arithmetic on the byte's number, a tag below 8 with the fields above it
(`30_encoding.md` R52 to R59), and so that a step runs the instruction whose byte stands at `pc`. -/

namespace Sys2Proof

open Laws (opTag)

/-! ## Fields by number -/

/-- A single bit as arithmetic on the byte's value (R6). -/
theorem bit_toNat (b : Byte) (i : Nat) : (bit b i).toNat = b.toNat / 2 ^ i % 2 := by
  rw [bit, BitVec.getLsbD, Nat.toNat_testBit]

theorem regOfId_field_num (b : Byte) (lo : Nat) :
    (regOfId (field b lo 2)).num = b.toNat / 2 ^ lo % 2 ^ 2 := by
  rw [regOfId_num, field_toNat]

theorem deviceOfId_field_num (b : Byte) (lo : Nat) :
    (deviceOfId (field b lo 2)).num = b.toNat / 2 ^ lo % 2 ^ 2 := by
  rw [deviceOfId_num, field_toNat]

theorem Device.num_inj {d e : Device} (h : d.num = e.num) : d = e := by
  rw [← deviceOfId_deviceId d, ← deviceOfId_deviceId e, deviceId, deviceId, h]

theorem bit_eq {b : Byte} {i : Nat} {n : Bool} (h : b.toNat / 2 ^ i % 2 = n.toNat) : bit b i = n := by
  rw [← Bool.ofNat_toNat (bit b i), bit_toNat, h, Bool.ofNat_toNat]

theorem field_eq {b : Byte} {lo width : Nat} {f : BitVec width}
    (h : b.toNat / 2 ^ lo % 2 ^ width = f.toNat) : field b lo width = f :=
  BitVec.eq_of_toNat_eq ((field_toNat b lo width).trans h)

theorem regOfId_field_eq {b : Byte} {lo : Nat} {r : Reg} (h : b.toNat / 2 ^ lo % 2 ^ 2 = r.num) :
    regOfId (field b lo 2) = r :=
  Reg.num_inj ((regOfId_field_num b lo).trans h)

theorem deviceOfId_field_eq {b : Byte} {lo : Nat} {d : Device} (h : b.toNat / 2 ^ lo % 2 ^ 2 = d.num) :
    deviceOfId (field b lo 2) = d :=
  Device.num_inj ((deviceOfId_field_num b lo).trans h)

/-! ## Decode, one equation per tag -/

section

variable {b : Byte}

theorem decode_of_tag_adi (h : b.toNat % 8 = 0) : decode b = .adi (field b 3 5) := by
  simp [decode, field_toNat, h]

theorem decode_of_tag_add (h : b.toNat % 8 = 1) :
    decode b = .add (bit b 3) (regOfId (field b 4 2)) (regOfId (field b 6 2)) := by
  simp [decode, field_toNat, h]

theorem decode_of_tag_sub (h : b.toNat % 8 = 2) :
    decode b = .sub (bit b 3) (regOfId (field b 4 2)) (regOfId (field b 6 2)) := by
  simp [decode, field_toNat, h]

theorem decode_of_tag_jne (h : b.toNat % 8 = 3) : decode b = .jne (bit b 3) (field b 4 4) := by
  simp [decode, field_toNat, h]

theorem decode_of_tag_jg (h : b.toNat % 8 = 4) : decode b = .jg (bit b 3) (field b 4 4) := by
  simp [decode, field_toNat, h]

theorem decode_of_tag_jl (h : b.toNat % 8 = 5) : decode b = .jl (bit b 3) (field b 4 4) := by
  simp [decode, field_toNat, h]

theorem decode_of_tag_ioi (h : b.toNat % 8 = 6) :
    decode b = .ioi (deviceOfId (field b 3 2)) (field b 5 3) := by
  simp [decode, field_toNat, h]

theorem decode_of_tag_ior (h : b.toNat % 8 = 7) :
    decode b = .ior (deviceOfId (field b 3 2)) (field b 5 3) := by
  simp [decode, field_toNat, h]

end

/-- Every byte has one of the eight tags. -/
theorem tag_cases (b : Byte) :
    b.toNat % 8 = 0 ∨ b.toNat % 8 = 1 ∨ b.toNat % 8 = 2 ∨ b.toNat % 8 = 3 ∨ b.toNat % 8 = 4 ∨
      b.toNat % 8 = 5 ∨ b.toNat % 8 = 6 ∨ b.toNat % 8 = 7 := by
  omega

/-! ## The fields a byte of each format has -/

/-- The fields of a byte whose number is put together as format R puts it (R54). -/
theorem fields_of_formatR {b : Byte} {op : Nat} {n : Bool} {rs rd : Reg} (hop : op < 8)
    (h : b.toNat = op + 8 * n.toNat + 16 * rs.num + 64 * rd.num) :
    bit b 3 = n ∧ regOfId (field b 4 2) = rs ∧ regOfId (field b 6 2) = rd := by
  have hn := n.toNat_lt
  have hrs := rs.num_lt
  have hrd := rd.num_lt
  exact ⟨bit_eq (by omega), regOfId_field_eq (by omega), regOfId_field_eq (by omega)⟩

/-- The same for format J (R55). -/
theorem fields_of_formatJ {b : Byte} {op : Nat} {p : Bool} {o : BitVec 4} (hop : op < 8)
    (h : b.toNat = op + 8 * p.toNat + 16 * o.toNat) : bit b 3 = p ∧ field b 4 4 = o := by
  have hp := p.toNat_lt
  exact ⟨bit_eq (by omega), field_eq (by omega)⟩

/-- The same for format D (R56). -/
theorem fields_of_formatD {b : Byte} {op : Nat} {d : Device} {f : BitVec 3} (hop : op < 8)
    (h : b.toNat = op + 8 * d.num + 32 * f.toNat) :
    deviceOfId (field b 3 2) = d ∧ field b 5 3 = f := by
  have hd := d.num_lt
  exact ⟨deviceOfId_field_eq (by omega), field_eq (by omega)⟩

/-! ## The bytes not yet written as numbers -/

theorem encode_jg_toNat (p : Bool) (o : BitVec 4) :
    (encode (.jg p o)).toNat = 4 + 8 * p.toNat + 16 * o.toNat :=
  encodeJ_toNat (op := 4#8) (by decide) p o

theorem deviceId_toNat (d : Device) : (deviceId d).toNat = d.num := by
  rw [deviceId, BitVec.toNat_ofNat, Nat.mod_eq_of_lt d.num_lt]

/-- The byte of format D (R56), from the tag up. -/
theorem encodeD_toNat {op : Byte} (hop : op.toNat < 8) (d : Device) (f : BitVec 3) :
    (encode.encodeD op d f).toNat = op.toNat + 8 * d.num + 32 * f.toNat := by
  have hd := d.num_lt
  have hdev := field_or_toNat (deviceId d) (k := 3) (by decide) hop
  rw [deviceId_toNat] at hdev
  have hfn := field_or_toNat f (k := 5) (by decide) (hdev.trans_lt (by omega))
  rw [encode.encodeD, BitVec.or_assoc, hfn]
  omega

theorem encode_ioi_toNat (d : Device) (f : BitVec 3) :
    (encode (.ioi d f)).toNat = 6 + 8 * d.num + 32 * f.toNat :=
  encodeD_toNat (op := 6#8) (by decide) d f

theorem encode_ior_toNat (d : Device) (f : BitVec 3) :
    (encode (.ior d f)).toNat = 7 + 8 * d.num + 32 * f.toNat :=
  encodeD_toNat (op := 7#8) (by decide) d f

/-! ## The round trip -/

/-- The tag of an encoding is its instruction's (R52). -/
theorem encode_toNat_mod (i : Instr) : (encode i).toNat % 8 = opTag i := by
  cases i with
  | adi m => rw [encode_adi_toNat, opTag]; omega
  | add n rs rd => rw [encode_add_toNat, opTag]; omega
  | sub n rs rd => rw [encode_sub_toNat, opTag]; omega
  | jne p o => rw [encode_jne_toNat, opTag]; omega
  | jg p o => rw [encode_jg_toNat, opTag]; omega
  | jl p o => rw [encode_jl_toNat, opTag]; omega
  | ioi d f => rw [encode_ioi_toNat, opTag]; omega
  | ior d f => rw [encode_ior_toNat, opTag]; omega

/-- Decoding takes an encoding apart again: the tag selects the instruction, the format's arithmetic gives
back each field (R57). -/
@[simp] theorem decode_encode (i : Instr) : decode (encode i) = i := by
  have htag := encode_toNat_mod i
  cases i with
  | adi m =>
    have hm : field (encode (.adi m)) 3 5 = m := field_eq (by rw [encode_adi_toNat]; omega)
    rw [decode_of_tag_adi htag, hm]
  | add n rs rd =>
    obtain ⟨hn, hrs, hrd⟩ := fields_of_formatR (by decide) (encode_add_toNat n rs rd)
    rw [decode_of_tag_add htag, hn, hrs, hrd]
  | sub n rs rd =>
    obtain ⟨hn, hrs, hrd⟩ := fields_of_formatR (by decide) (encode_sub_toNat n rs rd)
    rw [decode_of_tag_sub htag, hn, hrs, hrd]
  | jne p o =>
    obtain ⟨hp, ho⟩ := fields_of_formatJ (by decide) (encode_jne_toNat p o)
    rw [decode_of_tag_jne htag, hp, ho]
  | jg p o =>
    obtain ⟨hp, ho⟩ := fields_of_formatJ (by decide) (encode_jg_toNat p o)
    rw [decode_of_tag_jg htag, hp, ho]
  | jl p o =>
    obtain ⟨hp, ho⟩ := fields_of_formatJ (by decide) (encode_jl_toNat p o)
    rw [decode_of_tag_jl htag, hp, ho]
  | ioi d f =>
    obtain ⟨hd, hf⟩ := fields_of_formatD (by decide) (encode_ioi_toNat d f)
    rw [decode_of_tag_ioi htag, hd, hf]
  | ior d f =>
    obtain ⟨hd, hf⟩ := fields_of_formatD (by decide) (encode_ior_toNat d f)
    rw [decode_of_tag_ior htag, hd, hf]

/-- The fields cut from a byte, put together again, are the byte: they leave out no bit (R57). -/
@[simp] theorem encode_decode (b : Byte) : encode (decode b) = b := by
  apply BitVec.eq_of_toNat_eq
  obtain h | h | h | h | h | h | h | h := tag_cases b
  · rw [decode_of_tag_adi h, encode_adi_toNat, field_toNat]
    omega
  · rw [decode_of_tag_add h, encode_add_toNat, bit_toNat, regOfId_field_num, regOfId_field_num]
    omega
  · rw [decode_of_tag_sub h, encode_sub_toNat, bit_toNat, regOfId_field_num, regOfId_field_num]
    omega
  · rw [decode_of_tag_jne h, encode_jne_toNat, bit_toNat, field_toNat]
    omega
  · rw [decode_of_tag_jg h, encode_jg_toNat, bit_toNat, field_toNat]
    omega
  · rw [decode_of_tag_jl h, encode_jl_toNat, bit_toNat, field_toNat]
    omega
  · rw [decode_of_tag_ioi h, encode_ioi_toNat, deviceOfId_field_num, field_toNat]
    omega
  · rw [decode_of_tag_ior h, encode_ior_toNat, deviceOfId_field_num, field_toNat]
    omega

theorem decode_eq_iff {b : Byte} {i : Instr} : decode b = i ↔ b = encode i := by
  constructor
  · rintro rfl
    exact (encode_decode b).symm
  · rintro rfl
    exact decode_encode i

theorem opTag_decode (b : Byte) : opTag (decode b) = b.toNat % 8 := by
  rw [← encode_toNat_mod, encode_decode]

/-! ## The table word -/

theorem tableByte_toNat (b : Byte) : tableByte 8 b.toNat = b := by
  rw [tableByte, Nat.mod_eq_of_lt b.isLt, BitVec.ofNat_toNat, BitVec.setWidth_eq]

/-- The decoder the host asks reads the one byte of the word. -/
theorem decodeTableWord_eight (w : Nat) : decodeTableWord 8 w = some (decode (tableByte 8 w)) := rfl

/-- Settles O1: on numbers, encoding adds the fields up from the tag, and decoding divides them out
again. -/
theorem decodeEncodeRoundTrip : Obligations.DecodeEncodeRoundTrip := by
  unfold Obligations.DecodeEncodeRoundTrip
  refine ⟨fun i => ⟨decode_encode i, ?_⟩, encode_decode⟩
  rw [decodeTableWord_eight, tableByte_toNat, decode_encode]

/-- Settles O2: the equation of each tag, with its fields read as numbers. -/
theorem decodeCutsFieldsByOpcode : Obligations.DecodeCutsFieldsByOpcode := by
  unfold Obligations.DecodeCutsFieldsByOpcode
  intro b
  have hrd : (regOfId (field b 6 2)).num = b.toNat / 64 :=
    (regOfId_num _).trans (field_top_toNat b rfl)
  have formatR := And.intro (bit_toNat b 3) (And.intro (regOfId_field_num b 4) hrd)
  have formatJ := And.intro (bit_toNat b 3) (field_top_toNat b (lo := 4) (width := 4) rfl)
  have formatD := And.intro (deviceOfId_field_num b 3) (field_top_toNat b (lo := 5) (width := 3) rfl)
  exact ⟨fun h => ⟨_, decode_of_tag_adi h, field_top_toNat b rfl⟩,
    fun h => ⟨_, _, _, decode_of_tag_add h, formatR⟩, fun h => ⟨_, _, _, decode_of_tag_sub h, formatR⟩,
    fun h => ⟨_, _, decode_of_tag_jne h, formatJ⟩, fun h => ⟨_, _, decode_of_tag_jg h, formatJ⟩,
    fun h => ⟨_, _, decode_of_tag_jl h, formatJ⟩, fun h => ⟨_, _, decode_of_tag_ioi h, formatD⟩,
    fun h => ⟨_, _, decode_of_tag_ior h, formatD⟩⟩

/-! ## The opcode map -/

/-- The masks of the map cut out the tag. -/
theorem and_tagMask (b : Byte) : b &&& 0x07#8 = BitVec.ofNat 8 (b.toNat % 8) := by
  apply BitVec.eq_of_toNat_eq
  have htag : b.toNat % 8 < 2 ^ 8 := by omega
  rw [BitVec.toNat_and, BitVec.toNat_ofNat (b.toNat % 8) 8, Nat.mod_eq_of_lt htag]
  exact Nat.and_two_pow_sub_one_eq_mod b.toNat 3

/-- Which rows a byte matches is a matter of its tag alone (R59). -/
theorem matchingRows_eq (b : Byte) :
    matchingRows b = opcodeMap.filter fun r => BitVec.ofNat 8 (opTag (decode b)) == r.pattern := by
  rw [opTag_decode, ← and_tagMask]
  rfl

/-- Settles O5: the tag of an instruction is the pattern of its own row and of no other. -/
theorem opcodeMapPartitionsBytes : Obligations.OpcodeMapPartitionsBytes := by
  unfold Obligations.OpcodeMapPartitionsBytes
  intro b
  rw [matchingRows_eq]
  cases decode b with
  | adi _ => exact ⟨⟨"ADI", 0x07#8, 0x00#8⟩, by decide, rfl, rfl⟩
  | add _ _ _ => exact ⟨⟨"ADD", 0x07#8, 0x01#8⟩, by decide, rfl, rfl⟩
  | sub _ _ _ => exact ⟨⟨"SUB", 0x07#8, 0x02#8⟩, by decide, rfl, rfl⟩
  | jne _ _ => exact ⟨⟨"JNE", 0x07#8, 0x03#8⟩, by decide, rfl, rfl⟩
  | jg _ _ => exact ⟨⟨"JG", 0x07#8, 0x04#8⟩, by decide, rfl, rfl⟩
  | jl _ _ => exact ⟨⟨"JL", 0x07#8, 0x05#8⟩, by decide, rfl, rfl⟩
  | ioi _ _ => exact ⟨⟨"IOI", 0x07#8, 0x06#8⟩, by decide, rfl, rfl⟩
  | ior _ _ => exact ⟨⟨"IOR", 0x07#8, 0x07#8⟩, by decide, rfl, rfl⟩

/-- Settles O6: eleven evaluations of the decoder. -/
theorem sampleWordsDecode : Obligations.SampleWordsDecode := by
  unfold Obligations.SampleWordsDecode
  decide

end Sys2Proof

namespace Sys2Proof.Machine

/-! ## The step and its instruction -/

theorem step_of_fetch {s : State} {b : Byte} (hrun : s.status = .running) (hfetch : s.fetch = some b) :
    step s = exec (decode b) s := by
  simp only [step, hrun, hfetch]

theorem step_of_fetch_none {s : State} (hrun : s.status = .running) (hfetch : s.fetch = none) :
    step s = .next s.endEntry := by
  simp only [step, hrun, hfetch]

theorem step_of_terminal {s : State} (h : s.status ≠ .running) : step s = .next s := by
  obtain ⟨-, hs⟩ | ⟨hrun, -⟩ | ⟨b, hrun, -⟩ := step_cases s
  · exact hs
  · exact absurd hrun h
  · exact absurd hrun h

/-- Settles O10: the byte at `pc` decodes to the instruction it encodes. -/
theorem stepRunsDecodedInstruction : Obligations.StepRunsDecodedInstruction := by
  unfold Obligations.StepRunsDecodedInstruction
  intro s i hrun hfetch
  rw [step_of_fetch hrun hfetch, decode_encode]

/-! ## Placing a byte -/

theorem placeByte_getElem?_same (m : List Byte) (k : Nat) (b : Byte) : (placeByte m k b)[k]? = some b := by
  induction m, k, b using placeByte.induct with
  | case1 => rfl
  | case2 k b ih => simpa [placeByte] using ih
  | case3 => rfl
  | case4 c m k b ih => simpa [placeByte] using ih

theorem placeByte_getElem?_ne {m : List Byte} {k j : Nat} (b : Byte) (hne : j ≠ k) (hlt : j < m.length) :
    (placeByte m k b)[j]? = m[j]? := by
  induction m generalizing k j with
  | nil => simp at hlt
  | cons c m ih =>
    cases k with
    | zero =>
      obtain ⟨j, rfl⟩ := Nat.exists_eq_succ_of_ne_zero hne
      rfl
    | succ k =>
      cases j with
      | zero => rfl
      | succ j => simpa [placeByte] using ih (by omega) (by simpa using hlt)

/-- The placed byte is the one at `pc`. -/
@[simp] theorem State.fetch_placeNext (s : State) (b : Byte) : (s.placeNext b).fetch = some b :=
  placeByte_getElem?_same s.imem s.pc b

/-- Settles O11: the placed byte is fetched, and it decodes to the instruction of the table word. -/
theorem placedWordRunsNext : Obligations.PlacedWordRunsNext := by
  unfold Obligations.PlacedWordRunsNext
  intro s w i hi
  rw [decodeTableWord_eight, Option.some_inj] at hi
  refine ⟨?_, rfl, fun k hne hlt => placeByte_getElem?_ne _ hne hlt⟩
  rw [State.withFetchWord, step_of_fetch (s.placeNext_status _) (s.fetch_placeNext _), hi]

end Sys2Proof.Machine
end

