-- ==== Sys2Proof/Proofs/Image.lean ====
section
/-! PROOFS. Which images load and what they load, and the invariant at the start of a run
(`70_reset_and_hazards.md` R170 to R175). -/

namespace Sys2Proof.Machine

/-! ## Images -/

@[simp] theorem checkMagic_iff (b0 b1 : Byte) : checkMagic b0 b1 = true ↔ b0 = magicHigh ∧ b1 = magicLow := by
  rw [checkMagic, Bool.and_eq_true, beq_iff_eq, beq_iff_eq]

theorem imageBytes_cons_cons (b0 b1 : Byte) (rest : List Byte) :
    imageBytes (b0 :: b1 :: rest) =
      if checkMagic b0 b1 then (if rest.length ≤ imemDepth then .ok rest else .error .tooLong)
      else .error .invalidHeader := rfl

/-- An image gives its instructions exactly when the header and at most `IMEM_DEPTH` bytes are there
(R174, R175). -/
theorem imageBytes_ok_iff (f code : List Byte) :
    imageBytes f = .ok code ↔ f = magicHigh :: magicLow :: code ∧ code.length ≤ imemDepth := by
  match f with
  | [] => simp [imageBytes]
  | [_] => simp [imageBytes]
  | b0 :: b1 :: rest =>
    have hparts : b0 :: b1 :: rest = magicHigh :: magicLow :: code ↔ checkMagic b0 b1 = true ∧ rest = code := by
      simp [and_assoc]
    rw [imageBytes_cons_cons, hparts]
    split_ifs with hmagic hlen
    · simp only [Except.ok.injEq, hmagic, true_and]
      exact ⟨fun h => ⟨h, h ▸ hlen⟩, And.left⟩
    · simp only [hmagic, true_and, false_iff, not_and]
      rintro rfl
      exact hlen
    · simp [hmagic]

/-- A loaded image is the reset state with the image's instructions and the given configuration (R173). -/
theorem loadImage_ok_iff (c : Config) (f : List Byte) (t : State) :
    loadImage c f = .ok t ↔
      f = magicHigh :: magicLow :: t.imem ∧ t.imem.length ≤ imemDepth ∧
        t = { State.reset with imem := t.imem, cfg := c } := by
  unfold loadImage
  cases hcode : imageBytes f with
  | ok code =>
    obtain ⟨rfl, hlen⟩ := (imageBytes_ok_iff f code).mp hcode
    constructor
    · intro h
      cases h
      exact ⟨rfl, hlen, rfl⟩
    · rintro ⟨hf, -, ht⟩
      cases hf
      rw [ht]
  | error e =>
    constructor
    · nofun
    · rintro ⟨hf, hlen, -⟩
      cases hcode.symm.trans ((imageBytes_ok_iff f t.imem).mpr ⟨hf, hlen⟩)

/-- A list given by its first two entries and the entries after them. -/
theorem eq_cons_cons_iff {f code : List Byte} {b0 b1 : Byte} :
    f = b0 :: b1 :: code ↔ f[0]? = some b0 ∧ f[1]? = some b1 ∧ ∀ k, code[k]? = f[k + 2]? := by
  constructor
  · rintro rfl
    exact ⟨rfl, rfl, fun _ => rfl⟩
  · rintro ⟨h0, h1, hrest⟩
    apply List.ext_getElem?
    rintro (_ | _ | k)
    · exact h0
    · exact h1
    · exact (hrest k).symm

/-- Settles O9: the conditions say entry by entry that the image is the header followed by the loaded
instructions. -/
theorem imageLoadsAfterMagic : Obligations.ImageLoadsAfterMagic := by
  unfold Obligations.ImageLoadsAfterMagic
  refine ⟨checkMagic_iff, fun c f t => ?_⟩
  rw [loadImage_ok_iff]
  constructor
  · rintro ⟨hf, hlen, ht⟩
    obtain ⟨h0, h1, hrest⟩ := eq_cons_cons_iff.mp hf
    have hflen : f.length = t.imem.length + 2 := congrArg List.length hf
    exact ⟨h0, h1, hflen.trans_le (Nat.add_le_add_right hlen 2), by omega, hrest, ht⟩
  · rintro ⟨h0, h1, hflen, hlen, hrest, ht⟩
    exact ⟨eq_cons_cons_iff.mpr ⟨h0, h1, hrest⟩, hlen.trans_le (Nat.sub_le_of_le_add hflen), ht⟩

/-! ## The invariant at the start -/

/-- A reset lists no data byte, stands at position 0 and is running. -/
theorem resetAgain_inv (s : State) : Inv s.resetAgain :=
  ⟨reset_dmem_wf, Nat.zero_le _, trivial⟩

/-- Settles O8: the reset state and the state of a loaded image are resets too. -/
theorem resetMeetsInvariant : Obligations.ResetMeetsInvariant := by
  unfold Obligations.ResetMeetsInvariant
  refine ⟨resetAgain_inv State.reset, resetAgain_inv, fun c f t hload => ?_⟩
  obtain ⟨-, -, ht⟩ := (loadImage_ok_iff c f t).mp hload
  rw [ht]
  exact resetAgain_inv { State.reset with imem := t.imem, cfg := c }

end Sys2Proof.Machine
end

