-- ==== Sys2Proof/Proofs/Operands.lean ====
section
/-! PROOFS. The operand forms, the flag laws of the arithmetic instructions and the jumps of both
disciplines (`20_memory.md` R35, `40_arithmetic.md` R70, R74, `41_control_transfer.md` R81 to R85). -/

namespace Sys2Proof.Machine

/-! ## Registers and addresses -/

/-- Settles O12: the pointing register's low two bits are the number of the register it points to. -/
theorem resolverFollowsOnePointer : Obligations.ResolverFollowsOnePointer := by
  unfold Obligations.ResolverFollowsOnePointer
  intro x q
  rw [resolve_indirect]
  exact ⟨resolve_direct x q, regOfByte_num _, Nat.le_of_lt_succ (Reg.num_lt _)⟩

/-- An address as a number (R35): the high register moves up by four bits, and none of the twelve is
lost. -/
theorem ea_toNat (h v : Byte) : (ea h v).toNat = (h.toNat <<< 4 ||| v.toNat) := by
  have hshift : h.toNat <<< 4 < 2 ^ 12 := by
    rw [Nat.shiftLeft_eq]
    omega
  rw [ea, BitVec.toNat_or, BitVec.toNat_shiftLeft, BitVec.toNat_setWidth_of_le (by decide),
    BitVec.toNat_setWidth_of_le (by decide), Nat.mod_eq_of_lt hshift]

theorem offByte_toNat (o : BitVec 4) : (offByte o).toNat = o.toNat :=
  BitVec.toNat_setWidth_of_le (by decide)

/-- A 4-bit low component lies below the shifted high register and is added to it. -/
theorem ea_offByte_toNat (h : Byte) (o : BitVec 4) : (ea h (offByte o)).toNat = 16 * h.toNat + o.toNat := by
  rw [ea_toNat, offByte_toNat, ← Nat.shiftLeft_add_eq_or_of_lt o.isLt, Nat.shiftLeft_eq, Nat.mul_comm]

theorem jumpTarget_direct (s : State) (o : BitVec 4) : jumpTarget s false o = ea s.x.h (offByte o) := rfl

theorem jumpTarget_pointer (s : State) (o : BitVec 4) :
    jumpTarget s true o = ea s.x.h (s.read (ea s.x.h (offByte o))) := rfl

/-- Settles O17: the address as a number. -/
theorem addressIsHighRegisterOrLow : Obligations.AddressIsHighRegisterOrLow := by
  unfold Obligations.AddressIsHighRegisterOrLow
  exact ⟨fun h v => ⟨ea_toNat h v, Nat.le_of_lt_succ (ea h v).isLt⟩, ea_offByte_toNat, rfl, jumpTarget_direct⟩

/-- Settles O18: the direct target is the address of the operand, and the pointer target the address of
the byte found there. -/
theorem jumpTargetDirectAndPointer : Obligations.JumpTargetDirectAndPointer := by
  unfold Obligations.JumpTargetDirectAndPointer
  intro s o k hk
  have hea : ea s.x.h (offByte o) = k := BitVec.eq_of_toNat_eq ((ea_offByte_toNat _ o).trans hk.symm)
  rw [jumpTarget_direct, jumpTarget_pointer, hea, ea_toNat, Nat.shiftLeft_eq, Nat.mul_comm]
  exact ⟨rfl, rfl⟩

/-! ## Arithmetic -/

/-- Settles O16: the write-back computes both flags from the operands and takes none from the state
before, so with other flags before it is the same state. -/
theorem arithmeticFlagLaws : Obligations.ArithmeticFlagLaws := by
  unfold Obligations.ArithmeticFlagLaws
  intro i s t h
  refine ⟨?adi, ?add, ?sub, ?noFlagRead⟩
  case adi =>
    rintro m rfl
    cases h
    exact ⟨State.writeBack_zf_iff, State.writeBack_sf⟩
  case add =>
    rintro n rs rd rfl
    cases h
    exact ⟨State.writeBack_zf_iff, State.writeBack_sf⟩
  case sub =>
    rintro n rs rd rfl
    cases h
    exact ⟨State.writeBack_zf_iff, borrow_iff _ _⟩
  case noFlagRead =>
    rintro (⟨m, rfl⟩ | ⟨n, rs, rd, rfl⟩ | ⟨n, rs, rd, rfl⟩) p z
    · exact h
    · exact h
    · exact h

/-! ## Jumps -/

@[simp] theorem condJg_iff (s : State) : condJg s = true ↔ s.sf = true := Iff.rfl

/-- Settles O20: the jump is taken exactly when the sign flag is set. -/
theorem jgJumpsIfSignSet : Obligations.JgJumpsIfSignSet := by
  unfold Obligations.JgJumpsIfSignSet
  intro p o s hdispatch
  refine ⟨encode_jg_toNat p o, fun hset => ?taken, fun hclear => ?fallThrough⟩
  case taken => rw [exec_jg, State.branch_of_cond _ hdispatch ((condJg_iff s).mpr hset), State.goto]
  case fallThrough =>
    have hfails : ¬condJg s = true := by simp [hclear]
    rw [exec_jg, State.branch_of_not_cond _ hfails, State.goto]

/-- Under linear dispatch every jump falls through (R85). -/
theorem State.branch_of_linear {s : State} (c : Bool) (t : Addr) (hdispatch : s.cfg.dispatch = .linear) :
    s.branch c t = s.goto (s.pc + 1) := by
  rw [State.branch_eq, if_neg (by simp [hdispatch])]

/-- Settles O22: whatever its condition and target, a jump falls through. -/
theorem linearJumpsFallThrough : Obligations.LinearJumpsFallThrough := by
  unfold Obligations.LinearJumpsFallThrough
  intro p o s hdispatch
  simp only [List.forall_mem_cons, List.not_mem_nil, false_implies, implies_true, and_true]
  refine ⟨?jne, ?jg, ?jl⟩
  case jne => rw [exec_jne, State.branch_of_linear _ _ hdispatch, State.goto]
  case jg => rw [exec_jg, State.branch_of_linear _ _ hdispatch, State.goto]
  case jl => rw [exec_jl, State.branch_of_linear _ _ hdispatch, State.goto]

end Sys2Proof.Machine
end

