-- ==== Sys2Proof/Proofs/MathCalls.lean ====
section
/-! PROOFS. The calls that halt, go through a pointer byte, multiply, divide or write both flags
(`43_devices.md` R101, R106, R107, R121, R122, R128). -/

namespace Sys2Proof.Machine

/-! ## Cpu -/

/-- Settles O26: Cpu 0 halts, and the halt entry changes the status alone (R150). -/
theorem cpuZeroHalts : Obligations.CpuZeroHalts := by
  unfold Obligations.CpuZeroHalts
  intro s i v h
  rw [exec_of_calls h, device_cpu0, finishIo, State.haltEntry]

/-- Settles O31: the accumulator is set to the byte at the final address. -/
theorem cpuFiveLoadsThroughPointer : Obligations.CpuFiveLoadsThroughPointer := by
  unfold Obligations.CpuFiveLoadsThroughPointer
  exact fun s i v h => exec_of_calls_setAccumulator h (device_cpu5 v s)

/-- Settles O32: a store at the final address. -/
theorem cpuSixStoresThroughPointer : Obligations.CpuSixStoresThroughPointer := by
  unfold Obligations.CpuSixStoresThroughPointer
  rintro s i v k hwf h rfl
  exact exec_of_calls_write h (device_cpu6 v s) hwf

/-! ## The product and the quotient -/

/-- The product of two bytes fits 16 bits (R121). -/
theorem product_toNat (a b : Byte) : (product a b).toNat = a.toNat * b.toNat := by
  have hlt : a.toNat * b.toNat < 2 ^ 8 * 2 ^ 8 := Nat.mul_lt_mul'' a.isLt b.isLt
  exact (BitVec.toNat_ofNat _ 16).trans (Nat.mod_eq_of_lt hlt)

theorem lowByte_toNat (p : Word16) : (lowByte p).toNat = p.toNat % 256 := by
  rw [lowByte, BitVec.extractLsb'_toNat, Nat.shiftRight_zero]

theorem highByte_toNat (p : Word16) : (highByte p).toNat = p.toNat / 256 := by
  rw [highByte, BitVec.extractLsb'_toNat, Nat.shiftRight_eq_div_pow]
  omega

@[simp] theorem isZero16_iff (p : Word16) : isZero16 p = true ↔ p.toNat = 0 := by
  rw [isZero16, beq_iff_eq, ← BitVec.toNat_inj]
  rfl

/-- The quotient of two bytes fits a byte, since it is at most the dividend (R122). -/
theorem quotient_toNat (a b : Byte) : (quotient a b).toNat = a.toNat / b.toNat := by
  have hlt : a.toNat / b.toNat < 2 ^ 8 := (Nat.div_le_self _ _).trans_lt a.isLt
  rw [quotient, BitVec.toNat_ofNat, Nat.mod_eq_of_lt hlt]

/-- The floor of a quotient is zero exactly when the dividend is below the divisor. -/
theorem isZero_quotient_iff {a b : Byte} (hb : b ≠ 0) : isZero (quotient a b) = true ↔ a.toNat < b.toNat := by
  have hpos : b.toNat ≠ 0 := fun h => hb (BitVec.eq_of_toNat_eq h)
  rw [isZero_iff, ← BitVec.toNat_inj, quotient_toNat]
  exact Nat.div_eq_zero_iff_lt (Nat.pos_of_ne_zero hpos)

/-! ## Math 0 and Math 1, by what their value selects -/

/-- A value in range is not one out of range. -/
theorem not_outOfRange {v : Byte} {s : State} (hsel : v.toNat ≤ 3 ∨ s.cfg.mathSel = .mask) :
    ¬(3 < v.toNat ∧ s.cfg.mathSel = .fault) := by
  rintro ⟨hv, hpolicy⟩
  obtain hle | hmask := hsel
  · omega
  · cases hpolicy.symm.trans hmask

/-- A value that selects no register is fatal for Math 0 and Math 1 alike (R120). -/
theorem device_math_outOfRange {f : BitVec 3} (hf : f = 0#3 ∨ f = 1#3) {v : Byte} {s : State}
    (hv : 3 < v.toNat) (hpolicy : s.cfg.mathSel = .fault) :
    device .math f v s = .raise .indexOutOfBounds := by
  have hrange : ¬(v.toNat ≤ 3 ∨ s.cfg.mathSel = .mask) :=
    fun hsel => not_outOfRange hsel ⟨hv, hpolicy⟩
  obtain rfl | rfl := hf
  · rw [device_math0]
    obtain ⟨h, -⟩ | ⟨hsel, -⟩ := math0_cases v s
    · exact h
    · exact absurd hsel hrange
  · rw [device_math1]
    obtain ⟨h, -⟩ | ⟨hsel, -⟩ | ⟨hsel, -⟩ := math1_cases v s
    · exact h
    · exact absurd hsel hrange
    · exact absurd hsel hrange

section

variable {v : Byte} {s : State} {r : Reg}

theorem device_math0_product (hsel : v.toNat ≤ 3 ∨ s.cfg.mathSel = .mask) (hr : r.num = v.toNat % 4) :
    device .math 0#3 v s =
      .done (((s.setReg .a (lowByte (product s.x.a (s.x.get r)))).setReg .g
        (highByte (product s.x.a (s.x.get r)))).setZero (isZero16 (product s.x.a (s.x.get r)))) := by
  rw [← regOfByte_eq hr, device_math0]
  obtain ⟨-, hout⟩ | ⟨-, h⟩ := math0_cases v s
  · exact absurd hout (not_outOfRange hsel)
  · exact h

theorem device_math1_quotient (hsel : v.toNat ≤ 3 ∨ s.cfg.mathSel = .mask) (hr : r.num = v.toNat % 4)
    (hdiv : s.x.get r ≠ 0) :
    device .math 1#3 v s = setAccumulatorZero s (quotient s.x.a (s.x.get r)) := by
  rw [← regOfByte_eq hr] at hdiv ⊢
  obtain ⟨-, hout⟩ | ⟨-, hzero, -⟩ | ⟨-, -, h⟩ := math1_cases v s
  · exact absurd hout (not_outOfRange hsel)
  · exact absurd hzero hdiv
  · exact h

theorem device_math1_zeroDivisor (hsel : v.toNat ≤ 3 ∨ s.cfg.mathSel = .mask) (hr : r.num = v.toNat % 4)
    (hdiv : s.x.get r = 0) : device .math 1#3 v s = .raise .divideByZero := by
  rw [← regOfByte_eq hr] at hdiv
  obtain ⟨-, hout⟩ | ⟨-, -, h⟩ | ⟨-, hne, -⟩ := math1_cases v s
  · exact absurd hout (not_outOfRange hsel)
  · exact h
  · exact absurd hdiv hne

end

/-- Settles O35: the product's two bytes and its zero flag, or the fatal entry. -/
theorem mathZeroMultiplies : Obligations.MathZeroMultiplies := by
  unfold Obligations.MathZeroMultiplies
  intro s i v h
  refine ⟨fun r hsel hr => ⟨_, exec_of_calls_done h (device_math0_product hsel hr), ?low, ?high, ?zero, rfl⟩,
    fun hv hpolicy => exec_of_calls_raise h (device_math_outOfRange (.inl rfl) hv hpolicy)⟩
  case low => exact (lowByte_toNat _).trans (by rw [product_toNat])
  case high => exact (highByte_toNat _).trans (by rw [product_toNat])
  case zero => exact (isZero16_iff _).trans (by rw [product_toNat])

/-- Settles O36: the quotient and its zero flag, or one of the two fatal entries. -/
theorem mathOneDivides : Obligations.MathOneDivides := by
  unfold Obligations.MathOneDivides
  intro s i v h
  refine ⟨fun r hsel hr => ⟨fun hdiv => ?quotient, fun hdiv => ?zeroDivisor⟩,
    fun hv hpolicy => exec_of_calls_raise h (device_math_outOfRange (.inr rfl) hv hpolicy)⟩
  case quotient =>
    exact ⟨_, exec_of_calls_setAccumulatorZero h (device_math1_quotient hsel hr hdiv), quotient_toNat _ _,
      isZero_quotient_iff hdiv, rfl⟩
  case zeroDivisor => exact exec_of_calls_raise h (device_math1_zeroDivisor hsel hr hdiv)

/-! ## Math 7 -/

/-- The lowest bit of a byte as arithmetic. -/
theorem getLsbD_zero_iff (v : Byte) : v.getLsbD 0 = true ↔ v.toNat % 2 = 1 := by
  rw [BitVec.getLsbD, Nat.testBit_zero, decide_eq_true_iff]

/-- The bit above it. -/
theorem getLsbD_one_iff (v : Byte) : v.getLsbD 1 = true ↔ v.toNat / 2 % 2 = 1 := by
  rw [BitVec.getLsbD, Nat.testBit_succ, Nat.testBit_zero, decide_eq_true_iff]

/-- With `FLAGBIT_SIGN` 0 the sign flag is bit 0 of the value and the zero flag bit 1. -/
theorem flagsOf_sign_zero {c : Config} (hc : c.flagbitSign = 0) (v : Byte) :
    (flagSignOf c v = true ↔ v.toNat % 2 = 1) ∧ (flagZeroOf c v = true ↔ v.toNat / 2 % 2 = 1) := by
  rw [flagSignOf, flagZeroOf, flagbitZero, hc]
  exact ⟨getLsbD_zero_iff v, getLsbD_one_iff v⟩

/-- With `FLAGBIT_SIGN` 1 the two bits change places. -/
theorem flagsOf_sign_one {c : Config} (hc : c.flagbitSign = 1) (v : Byte) :
    (flagSignOf c v = true ↔ v.toNat / 2 % 2 = 1) ∧ (flagZeroOf c v = true ↔ v.toNat % 2 = 1) := by
  rw [flagSignOf, flagZeroOf, flagbitZero, hc]
  exact ⟨getLsbD_one_iff v, getLsbD_zero_iff v⟩

/-- When the two low bits agree, both flags are that bit, whatever `FLAGBIT_SIGN` is. -/
theorem flagsOf_of_bits_agree (c : Config) {v : Byte} {z : Bool} (h0 : v.getLsbD 0 = z) (h1 : v.getLsbD 1 = z) :
    flagSignOf c v = z ∧ flagZeroOf c v = z := by
  rw [flagSignOf, flagZeroOf, flagbitZero]
  match c.flagbitSign with
  | 0 => exact ⟨h0, h1⟩
  | 1 => exact ⟨h1, h0⟩

/-- Settles O39: one clause for each value of `FLAGBIT_SIGN`, and two that hold for both. -/
theorem mathSevenWritesBothFlags : Obligations.MathSevenWritesBothFlags := by
  unfold Obligations.MathSevenWritesBothFlags
  intro s i v h
  have hbit0 := getLsbD_zero_iff v
  have hbit1 := getLsbD_one_iff v
  refine ⟨_, exec_of_calls_done h (device_math7 v s), rfl, fun hc => flagsOf_sign_zero hc v,
    fun hc => flagsOf_sign_one hc v, fun hv => flagsOf_of_bits_agree s.cfg ?_ ?_,
    fun hv => flagsOf_of_bits_agree s.cfg (hbit0.mpr (by omega)) (hbit1.mpr (by omega))⟩
  · exact Bool.eq_false_iff.mpr fun hset => by have := hbit0.mp hset; omega
  · exact Bool.eq_false_iff.mpr fun hset => by have := hbit1.mp hset; omega

end Sys2Proof.Machine
end

