-- ==== Sys2Proof/Proofs/Effects.lean ====
section
/-! PROOFS. What an instruction can do to the state, said once with a name for each case, and the rules of
the form "nothing else writes this" (`10_state.md` sections 1, 3, 6, `42_io_dispatch.md` section 3). -/

namespace Sys2Proof.Machine

/-! ## Device functions -/

/-- The event `e` that Screen function `f` emits for the value `v` (R113, R114, R115, R118). -/
def IsScreenEvent (f : BitVec 3) (v : Byte) (e : Event) : Prop :=
  (f = 0#3 ∧ e = .screenRow v) ∨ (f = 1#3 ∧ e = .screenCol v) ∨ (f = 2#3 ∧ e = .screenChar v) ∨
    (f = 5#3 ∧ e = .screenClear)

/-- The state a device function that returns can leave, when called with the value `v` in `s`. -/
inductive DeviceEffect (v : Byte) (s : State) : Device → BitVec 3 → State → Prop where
  | unchanged {d f} : DeviceEffect v s d f s
  | accumulator {d f} (b : Byte) : DeviceEffect v s d f (s.setReg .a b)
  | store : DeviceEffect v s .cpu 4#3 (s.write (s.ea v) s.x.a)
  | storePtr : DeviceEffect v s .cpu 6#3 (s.write (s.eaPtr v) s.x.a)
  | event {f e} (he : IsScreenEvent f v e) : DeviceEffect v s .screen f (s.emit e)
  | product (lo hi : Byte) (z : Bool) :
      DeviceEffect v s .math 0#3 (((s.setReg .a lo).setReg .g hi).setZero z)
  | result {f} (hf : f ≠ 6#3) (r : Byte) (z : Bool) : DeviceEffect v s .math f ((s.setReg .a r).setZero z)
  | flags (p z : Bool) : DeviceEffect v s .math 7#3 (s.setFlags p z)

/-- What the trace has gained tells the event. -/
theorem done_emit_inj {s : State} {e e' : Event} (h : DeviceResult.done (s.emit e) = .done (s.emit e')) :
    e = e' := by
  have hout := congrArg State.out (DeviceResult.done.inj h)
  simpa using hout

/-- A state with the old trace is not one that emitted. -/
theorem done_ne_done_emit {s t : State} {e : Event} (hout : t.out = s.out) :
    DeviceResult.done t ≠ .done (s.emit e) := by
  intro h
  have hgrown := hout.symm.trans (congrArg State.out (DeviceResult.done.inj h))
  simp at hgrown

/-- A Screen function emits the event of its own row in the dispatch table (R100). -/
theorem isScreenEvent_of_device {f : BitVec 3} {v : Byte} {s : State} {e : Event}
    (h : device .screen f v s = .done (s.emit e)) : IsScreenEvent f v e := by
  obtain rfl | rfl | rfl | rfl | rfl | rfl | rfl | rfl := fn3_cases f
  · exact .inl ⟨rfl, (done_emit_inj h).symm⟩
  · exact .inr (.inl ⟨rfl, (done_emit_inj h).symm⟩)
  · exact .inr (.inr (.inl ⟨rfl, (done_emit_inj h).symm⟩))
  · exact absurd h (done_ne_done_emit rfl)
  · exact absurd h (done_ne_done_emit rfl)
  · exact .inr (.inr (.inr ⟨rfl, (done_emit_inj h).symm⟩))
  · exact absurd h (done_ne_done_emit rfl)
  · exact absurd h (done_ne_done_emit rfl)

/-- Everything a device function that returns can have done. -/
theorem device_done_effect {d : Device} {f : BitVec 3} {v : Byte} {s t : State}
    (h : device d f v s = .done t) : DeviceEffect v s d f t := by
  obtain ⟨hd, -⟩ | ⟨hd, -⟩ | ⟨hd, -⟩ | ⟨hd, -⟩ | hd | ⟨b, hd, -⟩ | ⟨hd, rfl, rfl⟩ | ⟨hd, rfl, rfl⟩ |
    ⟨e, hd, rfl⟩ | ⟨lo, hi, z, hd, rfl, rfl⟩ | ⟨r, z, hd, rfl, hf⟩ | ⟨p, z, hd, rfl, rfl⟩ :=
    device_cases d f v s
  all_goals cases hd.symm.trans h
  · exact .unchanged
  · exact .accumulator b
  · exact .store
  · exact .storePtr
  · exact .event (isScreenEvent_of_device hd)
  · exact .product lo hi z
  · exact .result (by rintro rfl; simp at hf) r z
  · exact .flags p z

/-- No device function but Cpu 0 halts (R92, R101). -/
theorem device_halt {d : Device} {f : BitVec 3} {v : Byte} {s : State} (h : device d f v s = .halt) :
    d = .cpu ∧ f = 0#3 := by
  obtain ⟨-, hd⟩ | ⟨hd, -⟩ | ⟨hd, -⟩ | ⟨hd, -⟩ | hd | ⟨_, hd, -⟩ | ⟨hd, -⟩ | ⟨hd, -⟩ | ⟨_, hd, -⟩ |
    ⟨_, _, _, hd, -⟩ | ⟨_, _, hd, -⟩ | ⟨_, _, hd, -⟩ := device_cases d f v s
  case inl => exact hd
  all_goals cases hd.symm.trans h

/-- A device function leaves `pc` to its instruction. -/
theorem DeviceEffect.pc {d : Device} {f : BitVec 3} {v : Byte} {s t : State}
    (h : DeviceEffect v s d f t) : t.pc = s.pc := by
  cases h <;> rfl

theorem DeviceEffect.status {d : Device} {f : BitVec 3} {v : Byte} {s t : State}
    (h : DeviceEffect v s d f t) : t.status = s.status := by
  cases h <;> rfl

/-- A device function keeps the canonical form of the data segment: only the two stores write it. -/
theorem DeviceEffect.dmem_wf {d : Device} {f : BitVec 3} {v : Byte} {s t : State}
    (h : DeviceEffect v s d f t) (hwf : Memory.wf s.dmem = true) : Memory.wf t.dmem = true := by
  cases h
  case store => exact memWrite_wf _ _ hwf
  case storePtr => exact memWrite_wf _ _ hwf
  all_goals exact hwf

/-! ## Instructions -/

/-- The state an instruction can leave: the result and both flags of an arithmetic one, the new position of a
jump, the entry into a terminal outcome, or what a device function returned, with `pc` advanced. -/
inductive ExecEffect (s : State) (i : Instr) : State → Prop where
  | adi (m : BitVec 5) (hi : i = .adi m) (b : Byte) (p z : Bool) : ExecEffect s i (s.writeBack .a b p z)
  | addSub (n : Bool) (rs rd : Reg) (hi : i = .add n rs rd ∨ i = .sub n rs rd) (r : Reg) (b : Byte)
      (p z : Bool) : ExecEffect s i (s.writeBack r b p z)
  | jump (k : Nat) (hk : k = s.pc + 1 ∨ s.cfg.dispatch = .indexed ∧ k < 4096) : ExecEffect s i (s.goto k)
  | halts {v} (hcall : Calls s .cpu 0#3 i v) : ExecEffect s i s.haltEntry
  | fatal {d f v c} (hcall : Calls s d f i v) (hraise : device d f v s = .raise c) :
      ExecEffect s i (s.fatalEntry c)
  | returns {d f v t} (hcall : Calls s d f i v) (heff : DeviceEffect v s d f t) : ExecEffect s i t.advance

/-- A jump goes to the next index or, under indexed dispatch, to a 12-bit target (R80, R85). -/
theorem branch_effect {s : State} {i : Instr} (c : Bool) (w : Addr) : ExecEffect s i (s.branch c w) := by
  rw [State.branch_eq]
  split_ifs with h
  · exact .jump _ (.inr ⟨h.1, w.isLt⟩)
  · exact .jump _ (.inl rfl)

/-- A device call advances, halts or ends fatally (R92). -/
theorem call_effect {s t : State} {d : Device} {f : BitVec 3} {i : Instr} {v : Byte}
    (hcall : Calls s d f i v) (h : exec i s = .next t) : ExecEffect s i t := by
  cases (exec_of_calls hcall).symm.trans h
  obtain ⟨u, hd, hfin⟩ | ⟨hd, hfin⟩ | ⟨c, hd, hfin⟩ := finishIo_cases (device d f v s) s <;> rw [hfin]
  · exact .returns hcall (device_done_effect hd)
  · obtain ⟨rfl, rfl⟩ := device_halt hd
    exact .halts hcall
  · exact .fatal hcall hd

/-- Everything an instruction can do. -/
theorem exec_effect {i : Instr} {s t : State} (h : exec i s = .next t) : ExecEffect s i t := by
  cases i with
  | adi m => cases h; exact .adi m rfl _ _ _
  | add n rs rd => cases h; exact .addSub n rs rd (.inl rfl) _ _ _ _
  | sub n rs rd => cases h; exact .addSub n rs rd (.inr rfl) _ _ _ _
  | jne p o => cases h; exact branch_effect _ _
  | jg p o => cases h; exact branch_effect _ _
  | jl p o => cases h; exact branch_effect _ _
  | ioi d f =>
    obtain ⟨v, hcall⟩ := exists_calls_iff.mpr (.inl rfl)
    exact call_effect hcall h
  | ior d f =>
    obtain ⟨v, hcall⟩ := exists_calls_iff.mpr (.inr rfl)
    exact call_effect hcall h

/-! ## Writers -/

/-- Settles O50: of the effects that remain, only the product writes a register other than `A`. -/
theorem onlyAddSubChangeHighAndStack : Obligations.OnlyAddSubChangeHighAndStack := by
  unfold Obligations.OnlyAddSubChangeHighAndStack
  intro i s t h hnot
  cases exec_effect h
  case addSub n rs rd hi _ _ _ _ => exact absurd hi (not_or.mpr (hnot n rs rd))
  case returns d f v u hcall heff =>
    cases heff
    case product => exact ⟨rfl, rfl, fun hmath => absurd hcall (hmath v)⟩
    all_goals exact ⟨rfl, rfl, fun _ => rfl⟩
  all_goals exact ⟨rfl, rfl, fun _ => rfl⟩

/-- Settles O51: of the effects that remain, only Math 7 writes the sign flag, and only the product, the
Math results and Math 7 write the zero flag. -/
theorem onlyListedWritersChangeFlags : Obligations.OnlyListedWritersChangeFlags := by
  unfold Obligations.OnlyListedWritersChangeFlags
  intro i s t h hnot
  cases exec_effect h
  case adi m hi _ _ _ => exact absurd hi (hnot m true .a .a).1
  case addSub n rs rd hi _ _ _ _ => exact absurd hi (not_or.mpr (hnot 0 n rs rd).2)
  case returns d f v u hcall heff =>
    cases heff
    case product => exact ⟨fun _ => rfl, fun hmath => absurd hcall (hmath v 0#3 (by decide))⟩
    case result _ _ hf => exact ⟨fun _ => rfl, fun hmath => absurd hcall (hmath v f hf)⟩
    case flags =>
      exact ⟨fun hseven => absurd hcall (hseven v), fun hmath => absurd hcall (hmath v 7#3 (by decide))⟩
    all_goals exact ⟨fun _ => rfl, fun _ => rfl⟩
  all_goals exact ⟨fun _ => rfl, fun _ => rfl⟩

/-- A byte that reads otherwise after a store is the stored one. -/
theorem State.read_write_changed {s : State} {k j : Addr} {b : Byte} (hwf : Memory.wf s.dmem = true)
    (h : (s.write k b).read j ≠ s.read j) : j = k ∧ (s.write k b).read j = b := by
  obtain rfl : j = k := by
    by_contra hne
    exact h (State.read_write_ne b hwf hne)
  exact ⟨rfl, State.read_write_same j b hwf⟩

/-- Settles O52: of all effects, only the two stores touch the data segment. -/
theorem onlyCpuStoresChangeMemory : Obligations.OnlyCpuStoresChangeMemory := by
  unfold Obligations.OnlyCpuStoresChangeMemory
  intro i s t hwf h k hk
  cases exec_effect h
  case returns d f v u hcall heff =>
    cases heff
    case store =>
      obtain ⟨rfl, hread⟩ := State.read_write_changed hwf hk
      exact ⟨hread, v, .inl ⟨hcall, rfl⟩⟩
    case storePtr =>
      obtain ⟨rfl, hread⟩ := State.read_write_changed hwf hk
      exact ⟨hread, v, .inr ⟨hcall, rfl⟩⟩
    all_goals exact absurd rfl hk
  all_goals exact absurd rfl hk

/-- Settles O54: of all effects, only the event of a Screen call touches the trace. -/
theorem traceOnlyGrowsByScreenCalls : Obligations.TraceOnlyGrowsByScreenCalls := by
  unfold Obligations.TraceOnlyGrowsByScreenCalls
  intro s t h
  obtain ⟨-, hs⟩ | ⟨-, -, hs⟩ | ⟨b, -, hfetch, hs⟩ := step_cases s
  · cases hs.symm.trans h
    exact .inl rfl
  · cases hs.symm.trans h
    exact .inl rfl
  · cases exec_effect (hs.symm.trans h)
    case returns d f v u hcall heff =>
      cases heff
      case event e he => exact .inr ⟨e, b, f, v, rfl, hfetch, hcall, he⟩
      all_goals exact .inl rfl
    all_goals exact .inl rfl

end Sys2Proof.Machine
end

