-- ==== Sys2Proof/Proofs/Outcomes.lean ====
section
/-! PROOFS. How a run ends: the frozen terminal states, the step that ends a run, what raises each outcome,
the reach of `pc`, and the invariant (`60_exceptions.md`, `10_state.md` R14). -/

namespace Sys2Proof.Machine

/-! ## Status codes -/

/-- The status a code stands for (R151). -/
def statusOfCode (k : BitVec 3) : Status :=
  match k.toNat with
  | 0 => .running
  | 1 => .fatal .divideByZero
  | 2 => .fatal .keyboardUnimplemented
  | 3 => .fatal .indexOutOfBounds
  | 4 => .halted
  | _ => .endOfStream

theorem statusOfCode_statusCode (p : Status) : statusOfCode (statusCode p) = p := by
  cases p with
  | running => rfl
  | halted => rfl
  | endOfStream => rfl
  | fatal c => cases c <;> rfl

theorem statusCode_le (p : Status) : (statusCode p).toNat ≤ 5 := by
  cases p with
  | running => decide
  | halted => decide
  | endOfStream => decide
  | fatal c => cases c <;> decide

/-- Settles O47: a code can be read back, so different statuses have different codes. -/
theorem statusCodesAreDistinct : Obligations.StatusCodesAreDistinct := by
  unfold Obligations.StatusCodesAreDistinct
  exact ⟨fun p q h => Function.LeftInverse.injective statusOfCode_statusCode h, statusCode_le, rfl, rfl, rfl,
    fun _ => rfl⟩

/-! ## The end of the sequence and after -/

/-- Settles O40: beyond the sequence nothing is fetched, and after a reset without instructions position 0
is beyond it. -/
theorem runningPastTheEndEnds : Obligations.RunningPastTheEndEnds := by
  unfold Obligations.RunningPastTheEndEnds
  refine ⟨fun s hrun hpc => step_of_fetch_none hrun (State.fetch_none.mpr hpc), fun s hempty => ?_⟩
  refine step_of_fetch_none s.resetAgain_status (State.fetch_none.mpr ?_)
  rw [State.resetAgain_imem, hempty]
  exact Nat.zero_le _

/-- A terminal state is its own next state, and so the state any run from it ends in (R152). -/
theorem run_of_terminal {s : State} (h : s.status ≠ .running) (k : Nat) :
    Host.Core.run Sys2Proof.core k s = .next s := by
  induction k with
  | zero => exact run_zero s
  | succ k ih => rw [run_succ k (step_of_terminal h), ih]

/-- Settles O41: no number of steps leaves a terminal state. -/
theorem terminalStateIsFrozen : Obligations.TerminalStateIsFrozen := by
  unfold Obligations.TerminalStateIsFrozen
  exact fun s k h => run_of_terminal h k

/-! ## Ending or going on -/

/-- The run is over in `t`, and all but the status is as in `s`. -/
structure Ends (s t : State) : Prop where
  status : t.status ≠ .running
  rest : t = { s with status := t.status }

/-- The run goes on from `s` to `t`: with the same status, at the next index or, under indexed dispatch, at a
12-bit target. -/
structure GoesOn (s t : State) : Prop where
  status : t.status = s.status
  pc : t.pc = s.pc + 1 ∨ s.cfg.dispatch = .indexed ∧ t.pc < 4096

/-- An instruction ends the run or lets it go on. -/
theorem exec_ends_or_goesOn {i : Instr} {s t : State} (h : exec i s = .next t) : Ends s t ∨ GoesOn s t := by
  cases exec_effect h with
  | adi _ _ _ _ _ => exact .inr ⟨rfl, .inl rfl⟩
  | addSub _ _ _ _ _ _ _ _ => exact .inr ⟨rfl, .inl rfl⟩
  | jump k hk => exact .inr ⟨rfl, hk⟩
  | halts _ => exact .inl ⟨nofun, rfl⟩
  | fatal _ _ => exact .inl ⟨nofun, rfl⟩
  | returns _ heff => exact .inr ⟨heff.status, .inl (congrArg (· + 1) heff.pc)⟩

/-- So does a step, which goes on only from a running machine, within the sequence. -/
theorem step_ends_or_goesOn {s t : State} (h : step s = .next t) :
    Ends s t ∨ (s.status = .running ∧ s.pc < s.imem.length ∧ GoesOn s t) := by
  obtain ⟨hend, hs⟩ | ⟨-, -, hs⟩ | ⟨b, hrun, hfetch, hs⟩ := step_cases s
  · cases hs.symm.trans h
    exact .inl ⟨hend, rfl⟩
  · cases hs.symm.trans h
    exact .inl ⟨nofun, rfl⟩
  · exact (exec_ends_or_goesOn (hs.symm.trans h)).imp_right fun hgo => ⟨hrun, State.fetch_some_lt hfetch, hgo⟩

/-- Settles O42: a step that goes on stays running. -/
theorem endingStepChangesOnlyStatus : Obligations.EndingStepChangesOnlyStatus := by
  unfold Obligations.EndingStepChangesOnlyStatus
  intro s t h hend
  obtain hends | ⟨hrun, -, hgo⟩ := step_ends_or_goesOn h
  · exact hends.rest
  · exact absurd (hgo.status.trans hrun) hend

/-- A step keeps `pc`, moves it to an index up to the end of the sequence, or to a 12-bit target. -/
theorem step_pc {s t : State} (h : step s = .next t) :
    t.pc = s.pc ∨ t.pc ≤ s.imem.length ∨ t.pc < 4096 := by
  obtain hends | ⟨-, hlt, hgo⟩ := step_ends_or_goesOn h
  · exact .inl (by rw [hends.rest])
  · obtain hnext | ⟨-, htarget⟩ := hgo.pc
    · exact .inr (.inl (by omega))
    · exact .inr (.inr htarget)

/-- Settles O49: the end of the sequence and every target lie within `IMEM_DEPTH`. -/
theorem pcFitsItsWidth : Obligations.PcFitsItsWidth := by
  unfold Obligations.PcFitsItsWidth
  refine ⟨by decide, fun s t himem hpc h => ⟨?_, (step_sameInputs h).imem ▸ himem⟩⟩
  obtain hkept | hnext | htarget := step_pc h
  · exact hkept.trans_le hpc
  · exact hnext.trans himem
  · exact htarget.le

/-! ## Linear dispatch -/

/-- Under linear dispatch a step ends the run or moves to the next index. -/
theorem step_linear {s t : State} (hlinear : s.cfg.dispatch = .linear) (h : step s = .next t) :
    t.status ≠ .running ∨ t.pc = s.pc + 1 := by
  obtain hends | ⟨-, -, hgo⟩ := step_ends_or_goesOn h
  · exact .inl hends.status
  · obtain hnext | ⟨hindexed, -⟩ := hgo.pc
    · exact .inr hnext
    · cases hlinear.symm.trans hindexed

/-- A run that starts at most `k` indices before the end of the sequence is over within `k + 1` steps. -/
theorem run_linear_ends {k : Nat} {s : State} (hlinear : s.cfg.dispatch = .linear)
    (hk : s.imem.length ≤ s.pc + k) :
    ∃ t, Host.Core.run Sys2Proof.core (k + 1) s = .next t ∧ t.status ≠ .running := by
  induction k generalizing s with
  | zero =>
    by_cases hrun : s.status = .running
    · have hstep := step_of_fetch_none hrun (State.fetch_none.mpr hk)
      exact ⟨s.endEntry, run_succ 0 hstep, nofun⟩
    · exact ⟨s, run_of_terminal hrun 1, hrun⟩
  | succ k ih =>
    obtain ⟨t, ht⟩ := step_total s
    rw [run_succ _ ht]
    obtain hend | hnext := step_linear hlinear ht
    · exact ⟨t, run_of_terminal hend _, hend⟩
    · obtain ⟨himem, hcfg⟩ := step_sameInputs ht
      refine ih (by rw [hcfg, hlinear]) ?_
      rw [himem, hnext]
      omega

/-- Settles O23: no position is more than `N` indices before the end of the sequence. -/
theorem linearRunEndsWithinOnePass : Obligations.LinearRunEndsWithinOnePass := by
  unfold Obligations.LinearRunEndsWithinOnePass
  exact fun s hlinear => run_linear_ends hlinear (Nat.le_add_left _ _)

/-! ## The bytes of a device call -/

theorem passedBy_encode_ioi {s : State} {d : Device} {f : BitVec 3} {v : Byte} :
    PassedBy s (encode (.ioi d f)) v ↔ v = s.x.a := by
  simp [PassedBy, encode_toNat_mod, Laws.opTag]

theorem passedBy_encode_ior {s : State} {d : Device} {f : BitVec 3} {v : Byte} :
    PassedBy s (encode (.ior d f)) v ↔ ∃ r : Reg, r.num = s.x.a.toNat % 4 ∧ v = s.x.get r := by
  simp [PassedBy, encode_toNat_mod, Laws.opTag]

/-- A byte makes a call exactly when it is one of the call's two bytes; the value of the call is then the one
the byte passes. -/
theorem calls_decode_iff {s : State} {b : Byte} {d : Device} {f : BitVec 3} {v : Byte} :
    Calls s d f (decode b) v ↔ b ∈ [encode (.ioi d f), encode (.ior d f)] ∧ PassedBy s b v := by
  simp only [List.mem_cons, List.not_mem_nil, or_false]
  constructor
  · rintro (⟨hi, hv⟩ | ⟨hi, hv⟩) <;> obtain rfl := decode_eq_iff.mp hi
    · exact ⟨.inl rfl, passedBy_encode_ioi.mpr hv⟩
    · exact ⟨.inr rfl, passedBy_encode_ior.mpr hv⟩
  · rintro ⟨rfl | rfl, hv⟩
    · exact .inl ⟨decode_encode _, passedBy_encode_ioi.mp hv⟩
    · exact .inr ⟨decode_encode _, passedBy_encode_ior.mp hv⟩

/-! ## What raises each outcome -/

/-- Which device function raises which cause, and when (R141 to R143). -/
theorem device_raise_cases {d : Device} {f : BitVec 3} {v : Byte} {s : State} {c : Cause}
    (h : device d f v s = .raise c) :
    (c = .keyboardUnimplemented ∧ d = .keyboard ∧ (f = 0#3 ∨ f = 1#3)) ∨
    (c = .indexOutOfBounds ∧ d = .math ∧ (f = 0#3 ∨ f = 1#3) ∧ 3 < v.toNat ∧ s.cfg.mathSel = .fault) ∨
    (c = .divideByZero ∧ d = .math ∧ f = 1#3 ∧ (v.toNat ≤ 3 ∨ s.cfg.mathSel = .mask) ∧
      s.x.get (regOfByte v) = 0) := by
  obtain ⟨hd, -⟩ | ⟨hd, hcase⟩ | ⟨hd, hcase⟩ | ⟨hd, hcase⟩ | hd | ⟨_, hd, -⟩ | ⟨hd, -⟩ | ⟨hd, -⟩ | ⟨_, hd, -⟩ |
    ⟨_, _, _, hd, -⟩ | ⟨_, _, hd, -⟩ | ⟨_, _, hd, -⟩ := device_cases d f v s
  all_goals cases hd.symm.trans h
  · exact .inl ⟨rfl, hcase⟩
  · exact .inr (.inl ⟨rfl, hcase⟩)
  · exact .inr (.inr ⟨rfl, hcase⟩)

theorem device_raise_divideByZero {d : Device} {f : BitVec 3} {v : Byte} {s : State}
    (h : device d f v s = .raise .divideByZero) :
    d = .math ∧ f = 1#3 ∧ (v.toNat ≤ 3 ∨ s.cfg.mathSel = .mask) ∧ s.x.get (regOfByte v) = 0 := by
  simpa using device_raise_cases h

theorem device_raise_indexOutOfBounds {d : Device} {f : BitVec 3} {v : Byte} {s : State}
    (h : device d f v s = .raise .indexOutOfBounds) :
    d = .math ∧ (f = 0#3 ∨ f = 1#3) ∧ 3 < v.toNat ∧ s.cfg.mathSel = .fault := by
  simpa using device_raise_cases h

/-- An instruction of a running machine halts it exactly when it calls Cpu 0. -/
theorem exec_status_halted_iff {i : Instr} {s t : State} (hrun : s.status = .running)
    (h : exec i s = .next t) : t.status = .halted ↔ ∃ v, Calls s .cpu 0#3 i v := by
  constructor
  · intro hhalt
    cases exec_effect h
    case halts v hcall => exact ⟨v, hcall⟩
    case fatal => cases hhalt
    case returns heff => cases hrun.symm.trans (heff.status.symm.trans hhalt)
    all_goals cases hrun.symm.trans hhalt
  · rintro ⟨v, hcall⟩
    cases h.symm.trans (exec_of_calls hcall)
    rfl

section

variable {s t : State}

/-- A step of a running machine raises `c` exactly when the byte at `pc` calls a device function that does. -/
theorem step_status_fatal_iff {c : Cause} (hrun : s.status = .running) (h : step s = .next t) :
    t.status = .fatal c ↔
      ∃ b, s.fetch = some b ∧ ∃ d f v, Calls s d f (decode b) v ∧ device d f v s = .raise c := by
  cases hfetch : s.fetch with
  | none =>
    cases (step_of_fetch_none hrun hfetch).symm.trans h
    simp
  | some b =>
    rw [exec_status_fatal_iff hrun ((step_of_fetch hrun hfetch).symm.trans h)]
    simp only [Option.some_inj, exists_eq_left']

/-- A step of a running machine halts exactly when the byte at `pc` calls Cpu 0. -/
theorem step_status_halted_iff (hrun : s.status = .running) (h : step s = .next t) :
    t.status = .halted ↔ ∃ b, s.fetch = some b ∧ ∃ v, Calls s .cpu 0#3 (decode b) v := by
  cases hfetch : s.fetch with
  | none =>
    cases (step_of_fetch_none hrun hfetch).symm.trans h
    simp
  | some b =>
    rw [exec_status_halted_iff hrun ((step_of_fetch hrun hfetch).symm.trans h)]
    simp only [Option.some_inj, exists_eq_left']

/-- Only beyond the sequence does a step of a running machine end with `EndOfStream` (R15). -/
theorem length_le_of_step_endOfStream (hrun : s.status = .running) (h : step s = .next t)
    (hend : t.status = .endOfStream) : s.imem.length ≤ s.pc := by
  rw [← State.fetch_none]
  cases hfetch : s.fetch with
  | none => rfl
  | some b =>
    obtain hsame | hhalt | ⟨c, hfatal⟩ := exec_status ((step_of_fetch hrun hfetch).symm.trans h)
    · cases hrun.symm.trans (hsame.symm.trans hend)
    · cases hhalt.symm.trans hend
    · cases hfatal.symm.trans hend

end

/-- Settles O43: of the calls that raise this cause, the bytes are those of Math 1. -/
theorem divideByZeroExactly : Obligations.DivideByZeroExactly := by
  unfold Obligations.DivideByZeroExactly
  refine ⟨rfl, fun s t hrun h => ⟨?_, fun hfatal => endingStepChangesOnlyStatus s t h (by rw [hfatal]; nofun)⟩⟩
  rw [step_status_fatal_iff hrun h]
  constructor
  · rintro ⟨b, hfetch, d, f, v, hcall, hraise⟩
    obtain ⟨rfl, rfl, hsel, hzero⟩ := device_raise_divideByZero hraise
    obtain ⟨hb, hv⟩ := calls_decode_iff.mp hcall
    exact ⟨b, hb, hfetch, v, hv, hsel, regOfByte v, regOfByte_num v, hzero⟩
  · rintro ⟨b, hb, hfetch, v, hv, hsel, r, hr, hzero⟩
    exact ⟨b, hfetch, .math, 1#3, v, calls_decode_iff.mpr ⟨hb, hv⟩, device_math1_zeroDivisor hsel hr hzero⟩

/-- The bytes of Math 0 and Math 1. -/
theorem mem_math01_bytes {b : Byte} :
    b ∈ [0x1E#8, 0x1F#8, 0x3E#8, 0x3F#8] ↔
      ∃ f, (f = 0#3 ∨ f = 1#3) ∧ b ∈ [encode (.ioi .math f), encode (.ior .math f)] := by
  have hbytes : [0x1E#8, 0x1F#8, 0x3E#8, 0x3F#8] =
      [encode (.ioi .math 0#3), encode (.ior .math 0#3)] ++
        [encode (.ioi .math 1#3), encode (.ior .math 1#3)] := by
    decide
  rw [hbytes, List.mem_append]
  simp only [or_and_right, exists_or, exists_eq_left]

/-- Settles O45: of the calls that raise this cause, the bytes are those of Math 0 and 1. -/
theorem indexOutOfBoundsExactly : Obligations.IndexOutOfBoundsExactly := by
  unfold Obligations.IndexOutOfBoundsExactly
  refine ⟨rfl, fun s t hrun h => ?_⟩
  rw [step_status_fatal_iff hrun h]
  constructor
  · rintro ⟨b, hfetch, d, f, v, hcall, hraise⟩
    obtain ⟨rfl, hf, hv, hpolicy⟩ := device_raise_indexOutOfBounds hraise
    obtain ⟨hb, hpass⟩ := calls_decode_iff.mp hcall
    exact ⟨hpolicy, b, mem_math01_bytes.mpr ⟨f, hf, hb⟩, hfetch, v, hpass, hv⟩
  · rintro ⟨hpolicy, b, hb, hfetch, v, hpass, hv⟩
    obtain ⟨f, hf, hbf⟩ := mem_math01_bytes.mp hb
    exact ⟨b, hfetch, .math, f, v, calls_decode_iff.mpr ⟨hbf, hpass⟩, device_math_outOfRange hf hv hpolicy⟩

/-- Settles O46: the bytes that call Cpu 0 are two. -/
theorem onlyCpuZeroHalts : Obligations.OnlyCpuZeroHalts := by
  unfold Obligations.OnlyCpuZeroHalts
  intro s t hrun h
  simp only [step_status_halted_iff hrun h, exists_calls_iff, decode_eq_iff, and_or_left, exists_or,
    exists_eq_right]
  exact Iff.rfl

end Sys2Proof.Machine
end

