-- ==== Sys2Proof/Proofs/Invariant.lean ====
section
/-! PROOFS. Every step keeps the invariant (`10_state.md` sections 2 and 6, `60_exceptions.md`
section 4). -/

namespace Sys2Proof.Machine

section

variable {s t : State}

/-- No instruction but the two stores writes the data segment, and these keep its canonical form. -/
theorem exec_keeps_dmem_wf {i : Instr} (hwf : Memory.wf s.dmem = true) (h : exec i s = .next t) :
    Memory.wf t.dmem = true := by
  cases exec_effect h
  case returns heff => exact heff.dmem_wf hwf
  all_goals exact hwf

theorem step_keeps_dmem_wf (hwf : Memory.wf s.dmem = true) (h : step s = .next t) :
    Memory.wf t.dmem = true := by
  obtain ⟨-, hs⟩ | ⟨-, -, hs⟩ | ⟨b, -, -, hs⟩ := step_cases s
  · cases hs.symm.trans h
    exact hwf
  · cases hs.symm.trans h
    exact hwf
  · exact exec_keeps_dmem_wf hwf (hs.symm.trans h)

theorem statusExplained_of_running (hrun : s.status = .running) : StatusExplained s := by
  rw [StatusExplained, hrun]
  trivial

/-- A step that ends a run explains the status: what raised the outcome is still to be seen, since nothing
else was changed. -/
theorem statusExplained_of_ends (hrun : s.status = .running) (h : step s = .next t)
    (hend : t.status ≠ .running) : StatusExplained t := by
  obtain ⟨q, rfl⟩ : ∃ q, t = { s with status := q } := ⟨_, endingStepChangesOnlyStatus s t h hend⟩
  match q with
  | .running => exact absurd rfl hend
  | .halted => exact (onlyCpuZeroHalts s _ hrun h).mp rfl
  | .endOfStream => exact length_le_of_step_endOfStream (s := s) hrun h rfl
  | .fatal .keyboardUnimplemented => exact (keyboardUnimplementedExactly.2 s _ hrun h).mp rfl
  | .fatal .indexOutOfBounds => exact (indexOutOfBoundsExactly.2 s _ hrun h).mp rfl
  | .fatal .divideByZero =>
    obtain ⟨b, hb, hfetch, v, hv, -, hzero⟩ := (divideByZeroExactly.2 s _ hrun h).1.mp rfl
    exact ⟨b, hb, hfetch, v, hv, hzero⟩

theorem step_keeps_statusExplained (hs : StatusExplained s) (h : step s = .next t) : StatusExplained t := by
  by_cases hrun : s.status = .running
  · by_cases hend : t.status = .running
    · exact statusExplained_of_running hend
    · exact statusExplained_of_ends hrun h hend
  · cases (step_of_terminal hrun).symm.trans h
    exact hs

end

/-- Settles O48: clause by clause, the canonical form, the range of `pc` and the explained status. -/
theorem stepKeepsInvariant : Obligations.StepKeepsInvariant := by
  unfold Obligations.StepKeepsInvariant
  rintro s t ⟨hwf, hpc, hexplained⟩ h
  refine ⟨step_keeps_dmem_wf hwf h, ?_, step_keeps_statusExplained hexplained h⟩
  rw [(step_sameInputs h).imem]
  obtain hkept | hnext | htarget := step_pc h
  · exact hkept.trans_le hpc
  · exact hnext.trans (le_max_left _ _)
  · exact (Nat.le_of_lt_succ htarget).trans (le_max_right _ _)

end Sys2Proof.Machine
end

