-- ==== Sys2Proof/Proofs/Context.lean ====
section
/-! PROOFS. What a run does not depend on: the trace it has already written, and, but for taken jumps, the
dispatch discipline (`41_control_transfer.md` section 5, `10_state.md` section 7). Both are one change of
the state, which every instruction carries along. -/

namespace Sys2Proof.Machine

/-- The same machine under the discipline `d`, with the events `o` before its own. -/
def State.inContext (s : State) (d : Discipline) (o : List Event) : State :=
  { s.under d with out := o ++ s.out }

/-- The same result of a device function in that context. -/
def DeviceResult.inContext (d : Discipline) (o : List Event) : DeviceResult → DeviceResult
  | .done s => .done (s.inContext d o)
  | .halt => .halt
  | .raise c => .raise c

section

variable (d : Discipline) (o : List Event) (s : State)

theorem State.inContext_nil : s.inContext d [] = s.under d := rfl

@[simp] theorem State.inContext_x : (s.inContext d o).x = s.x := rfl
@[simp] theorem State.inContext_mathSel : (s.inContext d o).cfg.mathSel = s.cfg.mathSel := rfl

/-- An event goes to the end of the trace, whatever stands before it. -/
theorem State.emit_inContext (e : Event) : (s.inContext d o).emit e = (s.emit e).inContext d o := by
  simp only [State.emit, State.inContext, State.under, List.append_assoc]

/-! ## Device functions -/

theorem math0_inContext (v : Byte) : math0 v (s.inContext d o) = (math0 v s).inContext d o := by
  rw [math0, math0, State.inContext_mathSel]
  cases mathSelect s.cfg.mathSel v <;> rfl

theorem math1_inContext (v : Byte) : math1 v (s.inContext d o) = (math1 v s).inContext d o := by
  rw [math1, math1, State.inContext_mathSel]
  cases mathSelect s.cfg.mathSel v with
  | none => rfl
  | some r =>
    by_cases hdiv : s.x.get r = 0 <;> simp only [State.inContext_x, hdiv, if_true, if_false] <;> rfl

/-- No device function reads the discipline or the trace: each names the fields it reads, and an event is
only put at the end. -/
theorem device_inContext (dev : Device) (f : BitVec 3) (v : Byte) :
    device dev f v (s.inContext d o) = (device dev f v s).inContext d o := by
  cases dev with
  | cpu => obtain rfl | rfl | rfl | rfl | rfl | rfl | rfl | rfl := fn3_cases f <;> rfl
  | keyboard => obtain rfl | rfl | rfl | rfl | rfl | rfl | rfl | rfl := fn3_cases f <;> rfl
  | screen =>
    obtain rfl | rfl | rfl | rfl | rfl | rfl | rfl | rfl := fn3_cases f
    · exact congrArg DeviceResult.done (s.emit_inContext d o (.screenRow v))
    · exact congrArg DeviceResult.done (s.emit_inContext d o (.screenCol v))
    · exact congrArg DeviceResult.done (s.emit_inContext d o (.screenChar v))
    · rfl
    · rfl
    · exact congrArg DeviceResult.done (s.emit_inContext d o .screenClear)
    · rfl
    · rfl
  | math =>
    obtain rfl | rfl | rfl | rfl | rfl | rfl | rfl | rfl := fn3_cases f
    · exact math0_inContext d o s v
    · exact math1_inContext d o s v
    all_goals rfl

theorem finishIo_inContext (r : DeviceResult) :
    finishIo (r.inContext d o) (s.inContext d o) = (finishIo r s).inContext d o := by
  cases r <;> rfl

/-- A call ends alike in either context. -/
theorem call_inContext (dev : Device) (f : BitVec 3) (v : Byte) :
    finishIo (device dev f v (s.inContext d o)) (s.inContext d o) =
      (finishIo (device dev f v s) s).inContext d o := by
  rw [device_inContext, finishIo_inContext]

end

/-! ## Instructions -/

/-- The instruction is a jump whose condition holds in `s`. -/
def TakesJump (s : State) : Instr → Prop
  | .jne _ _ => condJne s = true
  | .jg _ _ => condJg s = true
  | .jl _ _ => condJl s = true
  | _ => False

/-- A byte that decodes to a taken jump is one: the tag tells the instruction. -/
theorem jumpTaken_of_takesJump {s : State} {b : Byte} (h : TakesJump s (decode b)) : JumpTaken s b := by
  have htag := opTag_decode b
  cases hi : decode b <;> rw [hi] at h htag
  case jne => exact .inl ⟨htag.symm, (condJne_iff s).mp h⟩
  case jg => exact .inr (.inl ⟨htag.symm, (condJg_iff s).mp h⟩)
  case jl => exact .inr (.inr ⟨htag.symm, (condJl_iff s).mp h⟩)
  all_goals exact h.elim

theorem isJumpByte_of_jumpTaken {s : State} {b : Byte} (h : JumpTaken s b) : IsJumpByte b := by
  obtain ⟨htag, -⟩ | ⟨htag, -⟩ | ⟨htag, -⟩ := h
  · exact .inl htag
  · exact .inr (.inl htag)
  · exact .inr (.inr htag)

section

variable {d : Discipline} {o : List Event} {s t : State}

/-- The discipline is read when a jump's condition holds, and only then. -/
theorem branch_inContext {c : Bool} (w : Addr) (h : d = s.cfg.dispatch ∨ ¬c = true) :
    (s.inContext d o).branch c w = (s.branch c w).inContext d o := by
  obtain rfl | hc := h
  · rw [State.branch_eq, State.branch_eq]
    rfl
  · rw [State.branch_of_not_cond w hc, State.branch_of_not_cond w hc]
    rfl

/-- An instruction does the same in either context, a taken jump only under its own discipline. -/
theorem exec_inContext {i : Instr} (h : d = s.cfg.dispatch ∨ ¬TakesJump s i) (hexec : exec i s = .next t) :
    exec i (s.inContext d o) = .next (t.inContext d o) := by
  cases i <;> cases hexec
  case adi => rfl
  case add => rfl
  case sub => rfl
  case jne => exact congrArg Host.Outcome.next (branch_inContext _ h)
  case jg => exact congrArg Host.Outcome.next (branch_inContext _ h)
  case jl => exact congrArg Host.Outcome.next (branch_inContext _ h)
  case ioi dev f => exact congrArg Host.Outcome.next (call_inContext d o s dev f _)
  case ior dev f => exact congrArg Host.Outcome.next (call_inContext d o s dev f _)

/-! ## Steps and runs -/

theorem step_inContext (h : d = s.cfg.dispatch ∨ ∀ b, s.fetch = some b → ¬JumpTaken s b)
    (hstep : step s = .next t) : step (s.inContext d o) = .next (t.inContext d o) := by
  obtain ⟨hend, hs⟩ | ⟨hrun, hfetch, hs⟩ | ⟨b, hrun, hfetch, hs⟩ := step_cases s
  · cases hs.symm.trans hstep
    exact step_of_terminal hend
  · cases hs.symm.trans hstep
    exact step_of_fetch_none hrun hfetch
  · have hjump : d = s.cfg.dispatch ∨ ¬TakesJump s (decode b) :=
      h.imp_right fun hfree htakes => hfree b hfetch (jumpTaken_of_takesJump htakes)
    rw [step_of_fetch (s := s.inContext d o) hrun hfetch]
    exact exec_inContext hjump (hs.symm.trans hstep)

/-- A run does the same in either context, one of a program with jumps only under its own discipline. -/
theorem run_inContext {k : Nat} (h : d = s.cfg.dispatch ∨ ∀ b ∈ s.imem, ¬IsJumpByte b)
    (hrun : Host.Core.run Sys2Proof.core k s = .next t) :
    Host.Core.run Sys2Proof.core k (s.inContext d o) = .next (t.inContext d o) := by
  induction k generalizing s with
  | zero =>
    cases (run_zero s).symm.trans hrun
    exact run_zero _
  | succ k ih =>
    obtain ⟨u, hu⟩ := step_total s
    have hstep : step (s.inContext d o) = .next (u.inContext d o) :=
      step_inContext (h.imp_right fun hfree b hfetch htaken =>
        hfree b (List.mem_of_getElem? hfetch) (isJumpByte_of_jumpTaken htaken)) hu
    obtain ⟨himem, hcfg⟩ := step_sameInputs hu
    rw [run_succ k hstep]
    refine ih ?_ ((run_succ k hu).symm.trans hrun)
    rw [himem, hcfg]
    exact h

end

/-- Every run has a last state. -/
theorem run_total (k : Nat) (s : State) : ∃ t : State, Host.Core.run Sys2Proof.core k s = .next t := by
  induction k generalizing s with
  | zero => exact ⟨s, run_zero s⟩
  | succ k ih =>
    obtain ⟨t, ht⟩ := step_total s
    rw [run_succ k ht]
    exact ih t

/-- Settles O24: with no events put before its own, the context is the discipline alone. -/
theorem disciplinesAgreeUnlessJumpTaken : Obligations.DisciplinesAgreeUnlessJumpTaken := by
  unfold Obligations.DisciplinesAgreeUnlessJumpTaken
  intro s d e hfree
  obtain ⟨t, ht⟩ := step_total s
  simp only [← State.inContext_nil]
  exact ⟨t, step_inContext (.inr hfree) ht, step_inContext (.inr hfree) ht⟩

/-- Settles O25: a program without jumps never takes one. -/
theorem jumpFreeProgramsIgnoreDiscipline : Obligations.JumpFreeProgramsIgnoreDiscipline := by
  unfold Obligations.JumpFreeProgramsIgnoreDiscipline
  intro s d e k hfree
  obtain ⟨t, ht⟩ := run_total k s
  simp only [← State.inContext_nil]
  exact ⟨t, run_inContext (.inr hfree) ht, run_inContext (.inr hfree) ht⟩

/-- Settles O55: the run from the empty trace gives the state and the events, and the trace before is put in
front of them. -/
theorem runNeverReadsTrace : Obligations.RunNeverReadsTrace := by
  unfold Obligations.RunNeverReadsTrace
  intro k s
  obtain ⟨t, ht⟩ := run_total k { s with out := [] }
  refine ⟨t.under s.cfg.dispatch, t.out, fun o => ?_⟩
  have hstart : ({ s with out := [] } : State).inContext s.cfg.dispatch o = { s with out := o } := by
    simp only [State.inContext, State.under, List.append_nil]
  rw [← hstart]
  exact run_inContext (.inl rfl) ht

end Sys2Proof.Machine
end
